-- ==== Sys2Proof/Word.lean ====
section
/-! DEFINITION. The word types of the HTP: every value of the spec is an unsigned bit vector of a stated
width (00_scope.md R9, R10), so core's `BitVec` arithmetic is the spec's arithmetic modulo `2^W`. -/

namespace Sys2Proof

/-- An 8-bit unsigned value: one byte of `DATA` or of `PACKET`. -/
abbrev Byte := BitVec 8

/-- A 32-bit unsigned value: `CMD`, `STATUS`, and a command word. -/
abbrev Word32 := BitVec 32

/-- A 64-bit unsigned value: `TLEN`, `RESULT`, `LANE[k]`. -/
abbrev Word64 := BitVec 64

/-- A 7-bit register number `SEL` (10_state.md R35). -/
abbrev Select := BitVec 7

end Sys2Proof
end

