-- ==== Sys2Proof/Config.lean ====
section
/-! DEFINITION. The parameters of 00_scope.md R7. The sizes of the register arrays (`DATA_BYTES` 32, `LANES` 4,
`PACKET_BYTES` 32) and the register widths stand in the types of Machine/State.lean, so that a register's
type says its size. -/

namespace Sys2Proof

/-- `FH_MAX_LEN`: the longest tail `FH.TAIL` accepts (R7, R69; 90_conflicts.md C3). -/
def Config.fhMaxLen : Nat := 7

/-- `HH_MAX_LEN`: the longest tail region, and the largest value the 5-bit `LEN` field holds (R7, R58;
90_conflicts.md C4). -/
def Config.hhMaxLen : Nat := 31

/-- `MIR_MAX_LEN`: the longest tail `MIR.TAIL` accepts (R7, R87). -/
def Config.mirMaxLen : Nat := 7

/-- `MUM_LEN`: the only length `MUM.TAIL` accepts (R7, R91). -/
def Config.mumLen : Nat := 7

/-- How many instances a platform has beyond the first. OPEN (R7, R120; 92_eei_decisions.md D24): a constant
with no body, so that nothing can be proved of its value. -/
opaque Config.extraInstances : Nat

/-- `NUM_INSTANCES ≥ 1` (R7, R120). -/
def Config.numInstances : Nat := Config.extraInstances + 1

/-- `HTP_BASE`: the platform address at which the `SEL` map starts. OPEN (20_memory.md R43;
92_eei_decisions.md D3). The HTP never sees that address, so no step reads it. -/
opaque Config.htpBase : Nat

/-- FREE VALUE: the bits a `DATA` or `PACKET` byte holds while the spec gives it no value, `⊥` (00_scope.md R13;
93_implementation_defined.md U2, U3). The arguments are the source of the bits (`State.source`), since which reset or
clearing they stand (`State.resets`, `State.clears`), and the register. No body: nothing can be proved of the value (log
entry 1). That equal arguments give equal bits is the model's choice (log entry 11). -/
opaque Config.freeByte : Nat → Nat → Select → Byte

/-- FREE VALUE: the bits `TLEN`, `RESULT` or `LANE[k]` holds while the spec gives it no value, with the arguments
of `freeByte` (log entries 1 and 11). -/
opaque Config.freeLong : Nat → Nat → Select → Word64

end Sys2Proof
end

