-- ==== Sys2Proof/Syntax.lean ====
section
/-! DEFINITION. The command set HTP-CMD v1 (00_scope.md R2): one constructor per row of the opcode table. -/

namespace Sys2Proof

/-- A command. Its one operand is `n`, the `LEN` field: a byte count (30_encoding.md R58). All other operands
are implicit registers. -/
inductive Instr where
  /-- `FH.TAIL`, 40_fasthash.md R72. -/
  | fhTail (n : Nat)
  /-- `HH.PACKET`, 41_highwayhash.md R76. -/
  | hhPacket (n : Nat)
  /-- `MIR.TAIL`, 42_mirhash.md R87. -/
  | mirTail (n : Nat)
  /-- `MUM.TAIL`, 43_mumhash.md R93. -/
  | mumTail (n : Nat)
deriving DecidableEq, Repr

/-- The `LEN` operand of a command. -/
def Instr.len : Instr → Nat
  | .fhTail n => n
  | .hhPacket n => n
  | .mirTail n => n
  | .mumTail n => n

end Sys2Proof
end

