-- ==== Sys2Proof/WellFormed.lean ====
section
/-! DEFINITION. Which commands have an encoding. The one check is that the byte count fits the 5-bit `LEN`
field: "The assembler rejects a command line with `n > 31`, because no encoding holds it" (30_encoding.md R66).
A length outside a command's own contract is well formed: it encodes, and faults when it runs (R64). -/

namespace Sys2Proof

/-- The check, one arm per command. -/
def Instr.wellFormed : Instr → Bool
  | .fhTail n => decide (n ≤ Config.hhMaxLen)
  | .hhPacket n => decide (n ≤ Config.hhMaxLen)
  | .mirTail n => decide (n ≤ Config.hhMaxLen)
  | .mumTail n => decide (n ≤ Config.hhMaxLen)

/-- The command has an encoding. -/
abbrev WellFormed (i : Instr) : Prop := i.wellFormed = true

end Sys2Proof
end

