-- ==== Sys2Proof/Decode.lean ====
section
/-! DEFINITION. The command format `CMD32` (30_encoding.md R56–R65): the decoder, total on every 32-bit word, and
the encoder, both written from the tables of R57 and R60. A command is written whole to `CMD` as a 32-bit number,
so no byte order enters (20_memory.md R47). -/

namespace Sys2Proof

/-- The `OP` field, `w[2:0]` (R57). -/
def opField (w : Word32) : BitVec 3 := w.extractLsb' 0 3

/-- The `LEN` field, `w[7:3]` (R57). -/
def lenField (w : Word32) : BitVec 5 := w.extractLsb' 3 5

/-- The `RSV` field, `w[31:8]` (R57). -/
def rsvField (w : Word32) : BitVec 24 := w.extractLsb' 8 24

/-- Why a word selects no command (R59). -/
inductive DecodeError where
  /-- `w[2:0] ≥ 4`, whatever the other bits (R62). -/
  | illegalOp
  /-- A legal `OP` and `w[31:8] ≠ 0` (R63). -/
  | reservedBits
deriving DecidableEq, Repr

/-- The opcode map of R60: the command that an `OP` value selects, or none for the reserved values. -/
def commandOf (op : Nat) : Option (Nat → Instr) :=
  match op with
  | 0 => some .fhTail
  | 1 => some .hhPacket
  | 2 => some .mirTail
  | 3 => some .mumTail
  | _ => none

/-- Decoding of R59, its checks in the order written there. -/
def decode (w : Word32) : Except DecodeError Instr :=
  match commandOf (opField w).toNat with
  | none => .error .illegalOp
  | some command =>
    if rsvField w = 0 then .ok (command (lenField w).toNat) else .error .reservedBits

/-- The `OP` value of a command (R60). -/
def opcodeOf : Instr → BitVec 3
  | .fhTail _ => 0b000
  | .hhPacket _ => 0b001
  | .mirTail _ => 0b010
  | .mumTail _ => 0b011

/-- The word of a command: `RSV = 0`, then `LEN`, then `OP`, bit 31 first (R57). -/
def encode (i : Instr) : Word32 :=
  0#24 ++ BitVec.ofNat 5 i.len ++ opcodeOf i

/-- The command the decoder reads from a row of the opcode table given as its `nbits` low bits `w`, the bits above
them zero; none where it refuses. -/
def decodeTableWord (nbits w : Nat) : Option Instr :=
  match decode (BitVec.ofNat 32 (w % 2 ^ nbits)) with
  | .ok i => some i
  | .error _ => none

end Sys2Proof
end

