-- ==== Sys2Proof/Machine/State.lean ====
section
/-! DEFINITION. The state of one HTP instance (10_state.md R17–R37) and of the host's side of its interface
(44_host_interface.md R96), the reasons a step can stop, and the state after reset. -/

namespace Sys2Proof.Machine

/-- A register of the `SEL` map (10_state.md R35). -/
inductive Reg where
  | data (i : Fin 32)
  | tlen
  | cmd
  | status
  | result
  | lane (k : Fin 4)
  | packet (i : Fin 32)
deriving DecidableEq, Repr

/-- A register's value at its full width: the three widths of 20_memory.md R40 are the only ones. -/
inductive RegValue where
  | byte (v : Byte)
  | word (v : Word32)
  | long (v : Word64)
deriving DecidableEq, Repr

/-- A host access: the host has exactly these three kinds (44_host_interface.md R96). The value of a write is a
number, so that a value too wide for its register can be written down and refused (R103). -/
inductive HostAccess where
  | read (sel : Select)
  | write (sel : Select) (v : Nat)
  | reset
deriving DecidableEq, Repr

/-- The contract-violation fault causes of 60_exceptions.md R108. Taking one is a step of the machine, not a stop. -/
inductive FaultCause where
  /-- A word with `OP ≥ 4` (R62). -/
  | illegalOp
  /-- A word with a legal `OP` and `RSV ≠ 0` (R63). -/
  | reservedBits
  /-- `FH.TAIL`, `MIR.TAIL`, `MUM.TAIL` with `LEN ≥ 8`. -/
  | lengthBound
  /-- `HH.PACKET` with `LEN ≠ TLEN[4:0]`. -/
  | lengthMismatch
  /-- `MUM.TAIL` with `LEN ≤ 6` (R109). -/
  | lengthUnsupported
deriving DecidableEq, Repr

/-- Stops with a fault: there are none. Every fault of the spec is a state of the unit that the step enters and the
host reads in `STATUS` (60_exceptions.md R111, R113), so no constructor is needed (log entry 6: safe). -/
inductive Fault where
deriving DecidableEq, Repr

/-- Why the model gives an access no step. -/
inductive Refusal where
  /-- Raised by an arm of `exec` that has no meaning yet; no arm does. Safe. -/
  | notModelled (mnemonic : String)
  /-- Raised by a host read or write of a reserved `SEL` (44_host_interface.md R103). Safe. -/
  | reservedSelect (sel : Select)
  /-- Raised by a host write to `STATUS`, `RESULT`, `LANE[k]` or `PACKET[i]` (R103). Safe. -/
  | writesReadOnly (r : Reg)
  /-- Raised by a host write of a value that does not fit the register's width (R103, 10_state.md R36). Safe. -/
  | valueTooWide (r : Reg)
deriving DecidableEq, Repr

/-- One HTP instance and the host's side of its interface. The first seven fields are exactly the registers of
10_state.md R18. In a register that can hold no value, `none` is the spec's own `⊥` (00_scope.md R13): the value R37
gives it at reset, R99 gives the outputs of the other kind after a command and R111 gives every output after a fault.
The bits of such a register are a free value, so no use of it stops the machine (log entry 1). -/
structure State where
  /-- `DATA[0..31]` (R22). -/
  data : Vector (Option Byte) 32
  /-- `TLEN` (R23). -/
  tlen : Option Word64
  /-- `CMD`: the last accepted command word (R24). -/
  cmd : Word32
  /-- `STATUS` (R25); its fields are in Machine/Flags.lean. -/
  status : Word32
  /-- `RESULT` (R30). -/
  result : Option Word64
  /-- `LANE[0..3]` (R31). -/
  lane : Vector (Option Word64) 4
  /-- `PACKET[0..31]` (R32). -/
  packet : Vector (Option Byte) 32
  /-- The model's own: the accesses the host has issued and that have not taken effect, first issued first
  (20_memory.md R46; log entry 2). -/
  pending : List HostAccess
  /-- The model's own: the value the host's last read returned (44_host_interface.md R100; log entry 3). -/
  readData : Option RegValue
  /-- The model's own: where the free bits of this unit come from. No rule names it and no step changes it: two
instances of a platform differ in it (Machine/Platform.lean), and a power-on with other bits is the same state with
another `source` (log entry 11). -/
  source : Nat
  /-- The model's own: how many times `Reset` has made the input registers `⊥`; it picks their free bits (log entry 11). -/
  resets : Nat
  /-- The model's own: how many times the output registers have been made `⊥`; it picks their free bits (log entry 11). -/
  clears : Nat
  /-- The model's own: a command or a host read has used a register that held `⊥`. R101 and R102 say that the state is
  then marked refused: what happens from there on is the hardware's run with unspecified bits, and the refusal itself is
  `refusingStep` of Machine/RefusingStep.lean (log entry 12). -/
  marked : Bool
deriving DecidableEq, Repr

/-- The state after power-on (70_reset_and_hazards.md R121, R122): the register values of 10_state.md R37, no access
issued and nothing read yet. -/
def State.reset : State where
  data := Vector.replicate 32 none
  tlen := none
  cmd := 0x00000000
  status := 0x00000000
  result := none
  lane := Vector.replicate 4 none
  packet := Vector.replicate 32 none
  pending := []
  readData := none
  source := 0
  resets := 0
  clears := 0
  marked := false

end Sys2Proof.Machine
end

