-- ==== Sys2Proof/Machine/Flags.lean ====
section
/-! DEFINITION. The fields of `STATUS` (10_state.md R25–R29), the cause codes (60_exceptions.md R108) and the output
level `FAULT_OUT` (R116). The HTP has no other status bits and no condition codes (R33). -/

namespace Sys2Proof.Machine

/-- `w` with the field of `len` bits at bit `lo` replaced by `v`, every other bit kept. -/
def putField (lo : Nat) {len : Nat} (v : BitVec len) (w : Word32) : Word32 :=
  (w &&& ~~~((BitVec.allOnes len).setWidth 32 <<< lo)) ||| (v.setWidth 32 <<< lo)

/-- `STATUS.KIND`, bits `[1:0]` (R26). -/
def statusKind (st : Word32) : BitVec 2 := st.extractLsb' 0 2

/-- `STATUS.FAULT`, bit `[2]` (R27). -/
def statusFault (st : Word32) : BitVec 1 := st.extractLsb' 2 1

/-- `STATUS.CAUSE`, bits `[7:4]` (R28). -/
def statusCause (st : Word32) : BitVec 4 := st.extractLsb' 4 4

/-- `STATUS.LAST_OP`, bits `[10:8]` (R29). -/
def statusLastOp (st : Word32) : BitVec 3 := st.extractLsb' 8 3

/-- `STATUS.LAST_LEN`, bits `[15:11]` (R29). -/
def statusLastLen (st : Word32) : BitVec 5 := st.extractLsb' 11 5

/-- `STATUS.KIND <- v`. -/
def putKind (v : BitVec 2) (st : Word32) : Word32 := putField 0 v st

/-- `STATUS.FAULT <- v`. -/
def putFault (v : BitVec 1) (st : Word32) : Word32 := putField 2 v st

/-- `STATUS.CAUSE <- v`. -/
def putCause (v : BitVec 4) (st : Word32) : Word32 := putField 4 v st

/-- `STATUS.LAST_OP <- v`. -/
def putLastOp (v : BitVec 3) (st : Word32) : Word32 := putField 8 v st

/-- `STATUS.LAST_LEN <- v`. -/
def putLastLen (v : BitVec 5) (st : Word32) : Word32 := putField 11 v st

/-- `KIND = NONE`: no output register holds a value (R26). -/
def kindNone : BitVec 2 := 0

/-- `KIND = WORD`: `RESULT` holds the output (R26). -/
def kindWord : BitVec 2 := 1

/-- `KIND = PACKET`: `LANE` and `PACKET` hold the output (R26). -/
def kindPacket : BitVec 2 := 2

/-- The cause codes of R108; 0 is `NONE`, 6–15 are never raised. -/
def causeCode : FaultCause → BitVec 4
  | .illegalOp => 1
  | .reservedBits => 2
  | .lengthBound => 3
  | .lengthMismatch => 4
  | .lengthUnsupported => 5

/-- The fault a word that selects no command raises (R59). -/
def decodeCause : DecodeError → FaultCause
  | .illegalOp => .illegalOp
  | .reservedBits => .reservedBits

/-- The unit is in the fault state (60_exceptions.md R113). -/
def inFaultState (s : State) : Bool := statusFault s.status == 1

/-- The output level `FAULT_OUT`, equal to `STATUS.FAULT` at all times (R116). -/
def faultOut (s : State) : BitVec 1 := statusFault s.status

end Sys2Proof.Machine
end

