-- ==== Sys2Proof/Machine/Operands.lean ====
section
/-! DEFINITION. The operand forms: the `SEL` map that names a register to the host (10_state.md R35), and the implicit
operands a command reads: `DATA[0..n-1]` (R38), `TLEN[4:0]` and the length quantities of `HH.PACKET`
(41_highwayhash.md R75), and the little-endian assembly of bytes (00_scope.md R12). -/

namespace Sys2Proof.Machine

/-- The register a `SEL` names; none for the reserved values `0x28`–`0x3F` and `0x60`–`0x7F` (R35). -/
def regOf (sel : Select) : Option Reg :=
  if h : sel.toNat < 0x20 then some (.data ⟨sel.toNat, h⟩)
  else if sel = 0x20 then some .tlen
  else if sel = 0x21 then some .cmd
  else if sel = 0x22 then some .status
  else if sel = 0x23 then some .result
  else if h : 0x24 ≤ sel.toNat ∧ sel.toNat < 0x28 then some (.lane ⟨sel.toNat - 0x24, by omega⟩)
  else if h : 0x40 ≤ sel.toNat ∧ sel.toNat < 0x60 then some (.packet ⟨sel.toNat - 0x40, by omega⟩)
  else none

/-- The `SEL` of a register (R35). -/
def selOf : Reg → Select
  | .data i => BitVec.ofNat 7 i
  | .tlen => 0x20
  | .cmd => 0x21
  | .status => 0x22
  | .result => 0x23
  | .lane k => BitVec.ofNat 7 (0x24 + k)
  | .packet i => BitVec.ofNat 7 (0x40 + i)

/-- The width of a register in bits (R35, 20_memory.md R40). -/
def widthOf : Reg → Nat
  | .data _ => 8
  | .tlen => 64
  | .cmd => 32
  | .status => 32
  | .result => 64
  | .lane _ => 64
  | .packet _ => 8

/-- `DATA[j]`, none where it holds `⊥`; a command reads only `j < n ≤ 31` (R22, R38). -/
def dataByte (j : Nat) (s : State) : Option Byte :=
  if h : j < 32 then s.data[j] else none

/-- The bits of `DATA[j]`: its value, or a free value while it holds `⊥` ("the hardware would compute with whatever bits
the register holds after reset", 44_host_interface.md R101). Which states share those bits is the model's choice: those
of one `source` and one `resets` (log entry 11). -/
def dataBits (j : Nat) (s : State) : Byte := (dataByte j s).getD (Config.freeByte s.source s.resets (BitVec.ofNat 7 j))

/-- The bits of `TLEN`: its value, or a free value while it holds `⊥` (R101). -/
def tlenBits (s : State) : Word64 := s.tlen.getD (Config.freeLong s.source s.resets 0x20)

/-- The register holds a value, not `⊥` (R13). -/
def holdsValue (r : Reg) (s : State) : Bool :=
  match r with
  | .data i => s.data[i].isSome
  | .tlen => s.tlen.isSome
  | .cmd => true
  | .status => true
  | .result => s.result.isSome
  | .lane k => s.lane[k].isSome
  | .packet i => s.packet[i].isSome

/-- What a read of a register returns, at its full width (44_host_interface.md R100): its current value, or a free value
while it holds `⊥` (R102; 93_implementation_defined.md U2). -/
def readReg (r : Reg) (s : State) : RegValue :=
  match r with
  | .data i => .byte (dataBits i s)
  | .tlen => .long (tlenBits s)
  | .cmd => .word s.cmd
  | .status => .word s.status
  | .result => .long (s.result.getD (Config.freeLong s.source s.clears (selOf r)))
  | .lane k => .long (s.lane[k].getD (Config.freeLong s.source s.clears (selOf r)))
  | .packet i => .byte (s.packet[i].getD (Config.freeByte s.source s.clears (selOf r)))

/-- The bits of the input bytes `DATA[0..n-1]` in order (R38). -/
def readInput (n : Nat) (s : State) : List Byte := (List.range n).map fun j => dataBits j s

/-- Each of `DATA[0..n-1]` holds a value. -/
def inputHeld (n : Nat) (s : State) : Bool := (List.range n).all fun j => (dataByte j s).isSome

/-- Byte `j` of the input bytes a command has read; every rule reads only `j` below their number. -/
def byteAt (bytes : List Byte) (j : Nat) : Byte := bytes.getD j 0

/-- `remainder = TLEN[4:0]` (R75). -/
def remainderOf (tlen : Word64) : Nat := (tlen.extractLsb' 0 5).toNat

/-- `diff4 = remainder & 0b11100` (R75, R76). -/
def diff4Of (remainder : Nat) : Nat := remainder &&& 0b11100

/-- `mod4 = remainder & 0b00011` (R75, R76). -/
def mod4Of (remainder : Nat) : Nat := remainder &&& 0b00011

/-- `LE64(b0, …, b7)`: the first byte is the lowest-order byte (R12). -/
def le64 (b0 b1 b2 b3 b4 b5 b6 b7 : Byte) : Word64 :=
  b0.setWidth 64 + (b1.setWidth 64 <<< 8) + (b2.setWidth 64 <<< 16) + (b3.setWidth 64 <<< 24)
    + (b4.setWidth 64 <<< 32) + (b5.setWidth 64 <<< 40) + (b6.setWidth 64 <<< 48) + (b7.setWidth 64 <<< 56)

/-- `LE32(b0, …, b3)` (R12). -/
def le32 (b0 b1 b2 b3 : Byte) : Word32 :=
  b0.setWidth 32 + (b1.setWidth 32 <<< 8) + (b2.setWidth 32 <<< 16) + (b3.setWidth 32 <<< 24)

end Sys2Proof.Machine
end

