-- ==== Sys2Proof/Machine/Ops.lean ====
section
/-! DEFINITION. The operations the commands and the host accesses share: accepting a command word, committing outputs
(44_host_interface.md R98, R99), taking a contract-violation fault (60_exceptions.md R111) and the one way out of the
fault state, reset (70_reset_and_hazards.md R121). The HTP has no memory, so there is no memory operation
(20_memory.md R39, R44). -/

namespace Sys2Proof.Machine

/-- Marks the state when something that held `⊥` has been used (R101, R102; log entry 12): `held` says that all of it held a
value. -/
def noteUse (held : Bool) (s : State) : State := { s with marked := s.marked || !held }

/-- The state after a command has read `DATA[0..n-1]`: marked if one of them held `⊥` (R101). -/
def noteInput (n : Nat) (s : State) : State := noteUse (inputHeld n s) s

/-- The first writes of a command step: `CMD <- w`, `STATUS.LAST_OP <- w[2:0]`, `STATUS.LAST_LEN <- w[7:3]` (R98). -/
def acceptWord (w : Word32) (s : State) : State :=
  { s with cmd := w, status := putLastLen (lenField w) (putLastOp (opField w) s.status) }

/-- Every output register `⊥`, and `KIND` the given output kind (R26). -/
def withoutOutputs (kind : BitVec 2) (s : State) : State :=
  { s with
    status := putKind kind s.status
    result := none
    lane := Vector.replicate 4 none
    packet := Vector.replicate 32 none
    clears := s.clears + 1 }

/-- Commit of a word command: `RESULT <- v`, `KIND <- 1`, `LANE` and `PACKET` become `⊥` (R99). -/
def commitWord (v : Word64) (s : State) : State :=
  { withoutOutputs kindWord s with result := some v }

/-- `LANE[k] = LE64(P[8k], …, P[8k+7])` (41_highwayhash.md R81). -/
def laneOf (p : Vector Byte 32) (k : Fin 4) : Word64 :=
  le64 p[8 * k.val] p[8 * k.val + 1] p[8 * k.val + 2] p[8 * k.val + 3]
    p[8 * k.val + 4] p[8 * k.val + 5] p[8 * k.val + 6] p[8 * k.val + 7]

/-- Commit of `HH.PACKET`: `PACKET` and `LANE` are written, `KIND <- 2`, `RESULT` becomes `⊥` (R76, R99). -/
def commitPacket (p : Vector Byte 32) (s : State) : State :=
  { withoutOutputs kindPacket s with
    lane := Vector.ofFn fun k => some (laneOf p k)
    packet := Vector.ofFn fun i => some p[i] }

/-- Fault entry, `raise Fault(c)` inside a command's step: `FAULT <- 1`, `CAUSE <- code(c)`, `KIND <- 0`, every output `⊥`
(60_exceptions.md R111). `CMD`, `LAST_OP` and `LAST_LEN` already hold the faulting word's values; `DATA` and `TLEN` are
unchanged. The machine goes on in the fault state (R113). -/
def takeFault (c : FaultCause) (s : State) : State :=
  withoutOutputs kindNone { s with status := putCause (causeCode c) (putFault 1 s.status) }

/-- `Reset`: every register to its value of 10_state.md R37, which leaves the fault state (R121). The host's side, the
accesses still to come and what was last read, is not the instance's, and a mark and the source of free bits stay. The inputs and the outputs become
`⊥` once more. -/
def resetRegisters (s : State) : State :=
  { State.reset with
    pending := s.pending
    readData := s.readData
    source := s.source
    resets := s.resets + 1
    clears := s.clears + 1
    marked := s.marked }

end Sys2Proof.Machine
end

