-- ==== Sys2Proof/Machine/FastHash.lean ====
section
/-! DEFINITION. `FH.TAIL` (40_fasthash.md). -/

namespace Sys2Proof.Machine

/-- The loop of R72 over bytes whose first has index `i`: `v <- v ^ (zext_64(DATA[i]) << (8*i))`. -/
def placeLanes (i : Nat) (v : Word64) (bytes : List Byte) : Word64 :=
  match bytes with
  | [] => v
  | b :: rest => placeLanes (i + 1) (v ^^^ (b.setWidth 64 <<< (8 * i))) rest

/-- The word `FH.TAIL` packs: the loop from index 0 and value 0 (R72). -/
def fastHashWord (bytes : List Byte) : Word64 := placeLanes 0 0 bytes

/-- `FH.TAIL n` (R72). A byte that holds `⊥` enters with its free bits and marks the state (R101). -/
def execFhTail (n : Nat) (s : State) : Host.Outcome State Fault Refusal :=
  .next (
    if Config.fhMaxLen < n then takeFault .lengthBound s
    else commitWord (fastHashWord (readInput n s)) (noteInput n s))

end Sys2Proof.Machine
end

