-- ==== Sys2Proof/Machine/HighwayHash.lean ====
section
/-! DEFINITION. `HH.PACKET` (41_highwayhash.md). The steps are those of R76, one definition each. -/

namespace Sys2Proof.Machine

/-- Step 3: 32 zero bytes (R77). -/
def zeroPacket : Vector Byte 32 := Vector.replicate 32 0

/-- `for k in 0..count-1: P[dst+k] <- DATA[src+k]`. -/
def copyBytes (count dst src : Nat) (bytes : List Byte) (p : Vector Byte 32) : Vector Byte 32 :=
  match count with
  | 0 => p
  | k + 1 => (copyBytes k dst src bytes p).setIfInBounds (dst + k) (byteAt bytes (src + k))

/-- Step 5, second case: three positions from the `mod4` bytes at `off` (R80). -/
def scatterBytes (off mod4 : Nat) (bytes : List Byte) (p : Vector Byte 32) : Vector Byte 32 :=
  ((p.setIfInBounds 16 (byteAt bytes off)).setIfInBounds 17 (byteAt bytes (off + mod4 / 2))).setIfInBounds 18
    (byteAt bytes (off + mod4 - 1))

/-- The packet of R76 for a tail region of `remainder` bytes: the copy of step 4 (R78), then the 4-byte window when
bit 4 of `remainder` is set (R79), else the scatter when `mod4 ≠ 0` (R80), else nothing more (R82). -/
def buildPacket (remainder : Nat) (bytes : List Byte) : Vector Byte 32 :=
  let off := diff4Of remainder
  let mod4 := mod4Of remainder
  let p := copyBytes off 0 0 bytes zeroPacket
  if remainder &&& 16 ≠ 0 then copyBytes 4 28 (off + mod4 - 4) bytes p
  else if mod4 ≠ 0 then scatterBytes off mod4 bytes p
  else p

/-- `HH.PACKET n` (R76). A `TLEN` of `⊥` is used before the length check, which reads it (44_host_interface.md R101): it
marks the state, and its free bits decide the check. -/
def execHhPacket (n : Nat) (s : State) : Host.Outcome State Fault Refusal :=
  .next (
    if n ≠ remainderOf (tlenBits s) then takeFault .lengthMismatch (noteUse s.tlen.isSome s)
    else commitPacket (buildPacket n (readInput n s)) (noteUse s.tlen.isSome (noteInput n s)))

end Sys2Proof.Machine
end

