-- ==== Sys2Proof/Machine/MirHash.lean ====
section
/-! DEFINITION. `MIR.TAIL` (42_mirhash.md). The document's summary of the byte placement is superseded (R90,
90_conflicts.md C2); the procedure below is the rule. -/

namespace Sys2Proof.Machine

/-- One fold step: first the logical shift right by 8, then the OR of the byte at bit 56 (R88). -/
def foldByte (acc : Word64) (b : Byte) : Word64 := (acc >>> 8) ||| (b.setWidth 64 <<< 56)

/-- The word `MIR.TAIL` folds: the bytes in buffer order, from 0 (R87, R88). -/
def mirHashWord (bytes : List Byte) : Word64 := bytes.foldl foldByte 0

/-- `MIR.TAIL n` (R87). A byte that holds `⊥` enters with its free bits and marks the state (R101). -/
def execMirTail (n : Nat) (s : State) : Host.Outcome State Fault Refusal :=
  .next (
    if Config.mirMaxLen < n then takeFault .lengthBound s
    else commitWord (mirHashWord (readInput n s)) (noteInput n s))

end Sys2Proof.Machine
end

