-- ==== Sys2Proof/Machine/MumHash.lean ====
section
/-! DEFINITION. `MUM.TAIL` (43_mumhash.md). -/

namespace Sys2Proof.Machine

/-- The low lane: `LE32` of the first four bytes, zero-extended and added to the accumulator (R92, R93). -/
def addLowLane (acc : Word64) (bytes : List Byte) : Word64 :=
  acc + (le32 (byteAt bytes 0) (byteAt bytes 1) (byteAt bytes 2) (byteAt bytes 3)).setWidth 64

/-- The high lanes: bytes 6, 5 and 4 ORed in at bits 48, 40 and 32, in that order (R92, R93). -/
def orHighLanes (acc : Word64) (bytes : List Byte) : Word64 :=
  ((acc ||| ((byteAt bytes 6).setWidth 64 <<< 48)) ||| ((byteAt bytes 5).setWidth 64 <<< 40))
    ||| ((byteAt bytes 4).setWidth 64 <<< 32)

/-- The word `MUM.TAIL` combines, from an accumulator of 0 (R92, R93). -/
def mumHashWord (bytes : List Byte) : Word64 := orHighLanes (addLowLane 0 bytes) bytes

/-- `MUM.TAIL n` (R93): `LENGTH_BOUND` for `n > 7`, then `LENGTH_UNSUPPORTED` for `n < 7`. A byte that holds
`⊥` enters with its free bits and marks the state (R101). -/
def execMumTail (n : Nat) (s : State) : Host.Outcome State Fault Refusal :=
  .next (
    if Config.mumLen < n then takeFault .lengthBound s
    else if n < Config.mumLen then takeFault .lengthUnsupported s
    else commitWord (mumHashWord (readInput n s)) (noteInput n s))

end Sys2Proof.Machine
end

