-- ==== Sys2Proof/Machine/Dispatch.lean ====
section
/-! DEFINITION. One arm per command: the `case` of 30_encoding.md R59. -/

namespace Sys2Proof.Machine

/-- `execute` of 30_encoding.md R59: the command's own step, on a state in which the word has been accepted
(44_host_interface.md R98). The check that the unit is not in the fault state stands before decoding (R65), in
Machine/HostInterface.lean. -/
def exec (i : Instr) (s : State) : Host.Outcome State Fault Refusal :=
  match i with
  | .fhTail n => Sys2Proof.Machine.execFhTail n s
  | .hhPacket n => Sys2Proof.Machine.execHhPacket n s
  | .mirTail n => Sys2Proof.Machine.execMirTail n s
  | .mumTail n => Sys2Proof.Machine.execMumTail n s

end Sys2Proof.Machine
end

