-- ==== Sys2Proof/Machine/HostInterface.lean ====
section
/-! DEFINITION. The three kinds of host access (44_host_interface.md R96–R103) and the atomic step of a command. -/

namespace Sys2Proof.Machine

/-- `Read(SEL)`: the register's value at its full width, and no other change (R100). A register that holds `⊥` gives its
free bits and marks the state (R102; 93_implementation_defined.md U2); a reserved `SEL` is refused (R103). -/
def hostRead (sel : Select) (s : State) : Host.Outcome State Fault Refusal :=
  match regOf sel with
  | none => .refused (.reservedSelect sel)
  | some r => .next (noteUse (holdsValue r s) { s with readData := some (readReg r s) })

/-- A host write of the word `w` to `CMD`: one atomic step (R98). In the fault state it has no effect at all
(60_exceptions.md R113). -/
def issueCommand (w : Word32) (s : State) : Host.Outcome State Fault Refusal :=
  if inFaultState s then .next s
  else
    match decode w with
    | .error e => .next (takeFault (decodeCause e) (acceptWord w s))
    | .ok i => exec i (acceptWord w s)

/-- A write of a value that fits to a register (R97); the read-only registers refuse it (R103). -/
def writeReg (r : Reg) (v : Nat) (s : State) : Host.Outcome State Fault Refusal :=
  match r with
  | .data i => .next { s with data := s.data.set i (some (BitVec.ofNat 8 v)) }
  | .tlen => .next { s with tlen := some (BitVec.ofNat 64 v) }
  | .cmd => issueCommand (BitVec.ofNat 32 v) s
  | .status => .refused (.writesReadOnly .status)
  | .result => .refused (.writesReadOnly .result)
  | .lane k => .refused (.writesReadOnly (.lane k))
  | .packet i => .refused (.writesReadOnly (.packet i))

/-- `Write(SEL, v)`; a reserved `SEL` and a value wider than the register are refused (R97, R103). -/
def hostWrite (sel : Select) (v : Nat) (s : State) : Host.Outcome State Fault Refusal :=
  match regOf sel with
  | none => .refused (.reservedSelect sel)
  | some r => if 2 ^ widthOf r ≤ v then .refused (.valueTooWide r) else writeReg r v s

/-- One host access (R96). `Reset` is accepted in every state (70_reset_and_hazards.md R121). -/
def performAccess (a : HostAccess) (s : State) : Host.Outcome State Fault Refusal :=
  match a with
  | .read sel => hostRead sel s
  | .write sel v => hostWrite sel v s
  | .reset => .next (resetRegisters s)

/-- The next access to take effect, and the state with that access taken off the list (20_memory.md R46). -/
def nextAccess (s : State) : Option (HostAccess × State) :=
  match s.pending with
  | [] => none
  | a :: rest => some (a, { s with pending := rest })

/-- `s` with one more access issued, to take effect before those already issued. -/
def issueFirst (a : HostAccess) (s : State) : State := { s with pending := a :: s.pending }

end Sys2Proof.Machine
end

