-- ==== Sys2Proof/Machine/Step.lean ====
section
/-! DEFINITION. One step of the machine: the next host access takes effect (20_memory.md R46); with none issued the
unit is idle (60_exceptions.md R119). -/

namespace Sys2Proof.Machine

/-- The step: accesses take effect one at a time, in the order the host issued them. -/
def step (s : State) : Host.Outcome State Fault Refusal :=
  match nextAccess s with
  | none => .next s
  | some (a, s') => performAccess a s'

/-- `s` with a host write of the command word to `CMD` as the next access: the HTP fetches nothing (10_state.md R21),
so this is how a command reaches it. The bits above `nbits` are zero. -/
def State.withFetchWord (s : State) (nbits w : Nat) : State :=
  issueFirst (.write (selOf .cmd) (w % 2 ^ nbits)) s

end Sys2Proof.Machine
end

