-- ==== Sys2Proof/Machine/Assembler.lean ====
section
/-! DEFINITION. The assembler of host programs (30_encoding.md R66, R67): a line becomes the host accesses it stands
for. The unit never sees a line; nothing here is read by a step. -/

namespace Sys2Proof.Machine

/-- A line of a host program: the lines of R66, then the pseudo-instructions of R67. -/
inductive Line where
  /-- `fh.tail n`, `hh.packet n`, `mir.tail n`, `mum.tail n`. -/
  | command (i : Instr)
  /-- `wr sel, v` -/
  | wr (sel v : Nat)
  /-- `rd sel` -/
  | rd (sel : Nat)
  /-- `reset` -/
  | reset
  /-- `wd i, v` -/
  | wd (i v : Nat)
  /-- `wbuf i, b0, b1, …, bk` -/
  | wbuf (i : Nat) (bytes : List Nat)
  /-- `wt v` -/
  | wt (v : Nat)
  /-- `hh.total t` -/
  | hhTotal (t : Nat)
  /-- `.cmd w` -/
  | cmd (w : Nat)
  /-- `rd.status` -/
  | rdStatus
  /-- `rd.result` -/
  | rdResult
  /-- `rd.lane k` -/
  | rdLane (k : Nat)
  /-- `rd.packet i` -/
  | rdPacket (i : Nat)
deriving DecidableEq, Repr

/-- The write of a command's word to `CMD` (R66). -/
def commandAccess (i : Instr) : HostAccess := .write (selOf .cmd) (encode i).toNat

/-- The writes of `wbuf`: `wr i, b0 ; wr i+1, b1 ; …` (R67). -/
def writeBytes (i : Nat) (bytes : List Nat) : List HostAccess :=
  match bytes with
  | [] => []
  | b :: rest => .write (BitVec.ofNat 7 i) b :: writeBytes (i + 1) rest

/-- The accesses of a line, none where the assembler rejects it: a byte count above 31, because no encoding holds it
(R66); an index or a value outside the range R67 gives; a `SEL` that 7 bits do not hold. -/
def assemble (l : Line) : Option (List HostAccess) :=
  match l with
  | .command i => if i.wellFormed then some [commandAccess i] else none
  | .wr sel v => if sel < 128 then some [.write (BitVec.ofNat 7 sel) v] else none
  | .rd sel => if sel < 128 then some [.read (BitVec.ofNat 7 sel)] else none
  | .reset => some [.reset]
  | .wd i v => if i ≤ 31 ∧ v ≤ 255 then some [.write (BitVec.ofNat 7 i) v] else none
  | .wbuf i bytes =>
    if bytes ≠ [] ∧ i + bytes.length ≤ 32 then some (writeBytes i bytes) else none
  | .wt v => some [.write (selOf .tlen) v]
  | .hhTotal t => some [.write (selOf .tlen) t, commandAccess (.hhPacket (t &&& 31))]
  | .cmd w => if w < 2 ^ 32 then some [.write (selOf .cmd) w] else none
  | .rdStatus => some [.read (selOf .status)]
  | .rdResult => some [.read (selOf .result)]
  | .rdLane k => if k ≤ 3 then some [.read (BitVec.ofNat 7 (0x24 + k))] else none
  | .rdPacket i => if i ≤ 31 then some [.read (BitVec.ofNat 7 (0x40 + i))] else none

/-- The accesses of a list of lines in order, none where one line is rejected. -/
def assembleAll (lines : List Line) : Option (List HostAccess) :=
  match lines with
  | [] => some []
  | l :: rest =>
    match assemble l, assembleAll rest with
    | some a, some as => some (a ++ as)
    | _, _ => none

/-- `;` starts a comment (R66). -/
def stripComment (cs : List Char) : List Char := cs.takeWhile (· ≠ ';')

/-- A blank between words. -/
def isBlank (c : Char) : Bool := c = ' ' || c = '\t'

/-- The text without blanks at either end. -/
def trimBlanks (cs : List Char) : List Char :=
  ((cs.dropWhile isBlank).reverse.dropWhile isBlank).reverse

/-- The pieces of a text between its commas. -/
def splitCommas (cs : List Char) : List (List Char) :=
  match cs with
  | [] => [[]]
  | c :: rest =>
    if c = ',' then [] :: splitCommas rest
    else
      match splitCommas rest with
      | [] => [[c]]
      | piece :: pieces => (c :: piece) :: pieces

/-- The value of a digit, `0`–`9` or `a`–`f`. -/
def digitValue (c : Char) : Option Nat :=
  if '0'.toNat ≤ c.toNat ∧ c.toNat ≤ '9'.toNat then some (c.toNat - '0'.toNat)
  else if 'a'.toNat ≤ c.toNat ∧ c.toNat ≤ 'f'.toNat then some (c.toNat - 'a'.toNat + 10)
  else none

/-- The number that digits of a base write, continuing from `acc`. -/
def digitsFrom (base acc : Nat) (cs : List Char) : Option Nat :=
  match cs with
  | [] => some acc
  | c :: rest =>
    match digitValue c with
    | none => none
    | some d => if d < base then digitsFrom base (acc * base + d) rest else none

/-- A decimal or `0x` hexadecimal integer (R66). -/
def parseNumber (cs : List Char) : Option Nat :=
  match cs with
  | [] => none
  | '0' :: 'x' :: d :: rest => digitsFrom 16 0 (d :: rest)
  | d :: rest => digitsFrom 10 0 (d :: rest)

/-- The numbers of a list of texts, none where one is no number. -/
def parseNumbers (texts : List (List Char)) : Option (List Nat) :=
  match texts with
  | [] => some []
  | t :: rest =>
    match parseNumber (trimBlanks t), parseNumbers rest with
    | some n, some ns => some (n :: ns)
    | _, _ => none

/-- The line that a name and its operands stand for, none where there is no such line (R66, R67). -/
def lineOf (name : String) (operands : List Nat) : Option Line :=
  match name, operands with
  | "fh.tail", [n] => some (.command (.fhTail n))
  | "hh.packet", [n] => some (.command (.hhPacket n))
  | "mir.tail", [n] => some (.command (.mirTail n))
  | "mum.tail", [n] => some (.command (.mumTail n))
  | "wr", [sel, v] => some (.wr sel v)
  | "rd", [sel] => some (.rd sel)
  | "reset", [] => some .reset
  | "wd", [i, v] => some (.wd i v)
  | "wbuf", i :: bytes => some (.wbuf i bytes)
  | "wt", [v] => some (.wt v)
  | "hh.total", [t] => some (.hhTotal t)
  | ".cmd", [w] => some (.cmd w)
  | "rd.status", [] => some .rdStatus
  | "rd.result", [] => some .rdResult
  | "rd.lane", [k] => some (.rdLane k)
  | "rd.packet", [i] => some (.rdPacket i)
  | _, _ => none

/-- The line of a text with the comment gone and the letters small: none where it is rejected, no line where only
blanks are left. -/
def parseWords (cs : List Char) : Option (List Line) :=
  match cs with
  | [] => some []
  | _ :: _ =>
    let operands := trimBlanks (cs.dropWhile fun c => !isBlank c)
    match if operands = [] then some [] else parseNumbers (splitCommas operands) with
    | none => none
    | some ns => (lineOf (String.ofList (cs.takeWhile fun c => !isBlank c)) ns).map fun l => [l]

/-- A text line: mnemonics are case-insensitive and `;` starts a comment (R66). -/
def parseLine (text : String) : Option (List Line) :=
  parseWords (trimBlanks ((stripComment text.toList).map Char.toLower))

/-- A host program's text, one access line each, to its accesses; none where the assembler rejects a line. -/
def assembleText (texts : List String) : Option (List HostAccess) :=
  match texts with
  | [] => some []
  | t :: rest =>
    match parseLine t, assembleText rest with
    | some ls, some as => (assembleAll ls).map (· ++ as)
    | _, _ => none

/-- `s` with a host program loaded: its accesses are the ones the host has issued. -/
def loadProgram (program : List HostAccess) (s : State) : State := { s with pending := program }

end Sys2Proof.Machine
end

