-- ==== Sys2Proof/Machine/Platform.lean ====
section
/-! DEFINITION. A platform with several HTP instances (60_exceptions.md R120, 20_memory.md R55): a vector of states,
each with its own host accesses, of which the platform lets one take effect at a time. -/

namespace Sys2Proof.Machine

/-- `n` instances, each with its own registers and its own ordered stream of accesses (R46, R55). -/
abbrev Platform (n : Nat) := Vector State n

/-- The platform of the spec's open parameter `NUM_INSTANCES` (R7). -/
abbrev SpecPlatform := Platform Config.numInstances

/-- Each instance comes out of reset independently (R120), so each has free bits of its own: `source` is its place in the
vector. The HTP has no such number (R120); it is the model's choice, and nothing but the free bits depends on it (log
entry 11). -/
def platformReset (n : Nat) : Platform n := Vector.ofFn fun k => { State.reset with source := k.val }

/-- The next access of instance `k` takes effect. -/
def platformStep {n : Nat} (k : Fin n) (p : Platform n) : Host.Outcome (Platform n) Fault Refusal :=
  match step p[k] with
  | .next s => .next (p.set k s)
  | .fault r => .fault r
  | .refused r => .refused r

/-- The level outputs `FAULT_OUT` of the instances (R116); what a platform does with them is outside the HTP. -/
def platformFaultOut {n : Nat} (p : Platform n) : Vector (BitVec 1) n := Vector.ofFn fun k => faultOut p[k]

end Sys2Proof.Machine
end

