-- ==== Sys2Proof/Machine/RefusingStep.lean ====
section
/-! DEFINITION. The refusal of 44_host_interface.md R101 and R102, beside the run that goes on. `step` is the hardware's
run: it computes with the free bits of a register that holds `⊥`, and marks the state (log entry 1). -/

namespace Sys2Proof.Machine

/-- The step of the spec's own model, none where that model has no step: where a command or a host read uses `⊥` ("the
model refuses the command", R101; "returns no value in the model", R102), in a state once marked refused (R101, R102),
and where `step` refuses the access (R103). No output and no value read is left. -/
def refusingStep (s : State) : Option State :=
  match step s with
  | .next t => if t.marked then none else some t
  | .fault _ => none
  | .refused _ => none

end Sys2Proof.Machine
end

