-- ==== Sys2Proof/Safety.lean ====
section
/-! DEFINITION. What a state that the spec allows looks like: the rules about `STATUS`, `CMD` and the outputs that
hold between any two host accesses. `Coherent` is their conjunction. Each part is decidable. -/

namespace Sys2Proof.Machine

/-- `STATUS[3]` and `STATUS[31:16]` read 0 (10_state.md R25). -/
abbrev ReservedStatusZero (s : State) : Prop :=
  s.status.extractLsb' 3 1 = 0 ∧ s.status.extractLsb' 16 16 = 0

/-- `CAUSE` is 0 while `FAULT = 0`; after a fault it is a code of 60_exceptions.md R108 and `KIND = 0`
(R27, R28, R111). -/
abbrev FaultFieldsAgree (s : State) : Prop :=
  if statusFault s.status = 1 then
    1 ≤ statusCause s.status ∧ statusCause s.status ≤ 5 ∧ statusKind s.status = kindNone
  else statusCause s.status = 0

/-- `KIND` is 0, 1 or 2 and says which output registers hold a value (R26, R30, R31, R32). -/
abbrev OutputsMatchKind (s : State) : Prop :=
  statusKind s.status ≠ 3 ∧
  (s.result.isSome = true ↔ statusKind s.status = kindWord) ∧
  (∀ k : Fin 4, s.lane[k].isSome = true ↔ statusKind s.status = kindPacket) ∧
  (∀ i : Fin 32, s.packet[i].isSome = true ↔ statusKind s.status = kindPacket)

/-- Byte `m` of `LANE[k]` is `PACKET[8k+m]` (20_memory.md R48). -/
abbrev LanesViewPacket (s : State) : Prop :=
  ∀ (k : Fin 4) (m : Fin 8),
    s.lane[k].map (fun v => v.extractLsb' (8 * m.val) 8) = s.packet[8 * k.val + m.val]

/-- `LAST_OP` and `LAST_LEN` are the fields of the last accepted word, which `CMD` holds (R24, R29). -/
abbrev StatusNamesCommand (s : State) : Prop :=
  statusLastOp s.status = opField s.cmd ∧ statusLastLen s.status = lenField s.cmd

/-- The word in `CMD` is one that raises the cause in `STATUS` (R108, R110). -/
abbrev CauseExplained (s : State) : Prop :=
  (statusCause s.status = 1 → 4 ≤ opField s.cmd) ∧
  (statusCause s.status = 2 → opField s.cmd < 4 ∧ rsvField s.cmd ≠ 0) ∧
  (statusCause s.status = 3 → opField s.cmd < 4 ∧ opField s.cmd ≠ 1 ∧ rsvField s.cmd = 0 ∧ 8 ≤ lenField s.cmd) ∧
  (statusCause s.status = 4 → opField s.cmd = 1 ∧ rsvField s.cmd = 0) ∧
  (statusCause s.status = 5 → opField s.cmd = 3 ∧ rsvField s.cmd = 0 ∧ lenField s.cmd ≤ 6)

/-- The word in `CMD` is one whose success gives the output kind in `STATUS` (R26, R64). With `KIND = 0` and no fault
no command has run since reset, so `CMD` and `STATUS` are 0 (R37). -/
abbrev KindExplained (s : State) : Prop :=
  (statusKind s.status = kindWord →
    rsvField s.cmd = 0 ∧ opField s.cmd < 4 ∧ opField s.cmd ≠ 1 ∧ lenField s.cmd ≤ 7 ∧
      (opField s.cmd = 3 → lenField s.cmd = 7)) ∧
  (statusKind s.status = kindPacket → rsvField s.cmd = 0 ∧ opField s.cmd = 1) ∧
  (statusKind s.status = kindNone → statusFault s.status = 0 → s.cmd = 0 ∧ s.status = 0)

/-- The bits of `RESULT` that each word command leaves 0: `[63:56]` after `FH.TAIL` (40_fasthash.md R72) and `MUM.TAIL`
(43_mumhash.md R93), `[7:0]` after `MIR.TAIL` (42_mirhash.md R87). -/
abbrev ResultShape (s : State) : Prop :=
  (opField s.cmd = 0 ∨ opField s.cmd = 3 → s.result.map (fun v => v.extractLsb' 56 8) ∈ [none, some 0]) ∧
  (opField s.cmd = 2 → s.result.map (fun v => v.extractLsb' 0 8) ∈ [none, some 0])

/-- What every state between two host accesses satisfies. -/
structure Coherent (s : State) : Prop where
  reserved : ReservedStatusZero s
  faultFields : FaultFieldsAgree s
  outputs : OutputsMatchKind s
  lanes : LanesViewPacket s
  named : StatusNamesCommand s
  cause : CauseExplained s
  kind : KindExplained s
  shape : ResultShape s

/-- Every input register holds a value: the host has written all it may be asked for (70_reset_and_hazards.md
R124). -/
abbrev InputsWritten (s : State) : Prop :=
  s.tlen.isSome = true ∧ ∀ i : Fin 32, s.data[i].isSome = true

/-- A register the host may read: it holds a value, which for an output is what `KIND` says (70_reset_and_hazards.md
R125, 44_host_interface.md R102). -/
def mayRead (r : Reg) (s : State) : Bool :=
  match r with
  | .data i => s.data[i].isSome
  | .tlen => s.tlen.isSome
  | .cmd => true
  | .status => true
  | .result => statusKind s.status == kindWord
  | .lane _ => statusKind s.status == kindPacket
  | .packet _ => statusKind s.status == kindPacket

/-- A register the host may write the value `v` to: an input register or `CMD`, and a value of its width
(10_state.md R35, R36). -/
def mayWrite (r : Reg) (v : Nat) : Bool :=
  match r with
  | .data _ => decide (v < 2 ^ 8)
  | .tlen => decide (v < 2 ^ 64)
  | .cmd => decide (v < 2 ^ 32)
  | .status => false
  | .result => false
  | .lane _ => false
  | .packet _ => false

/-- An access of a host that keeps the rules of 44_host_interface.md R102 and R103. -/
def accessAllowed (a : HostAccess) (s : State) : Bool :=
  match a with
  | .read sel => (regOf sel).any fun r => mayRead r s
  | .write sel v => (regOf sel).any fun r => mayWrite r v
  | .reset => true

end Sys2Proof.Machine
end

