-- ==== Sys2Proof/Certificates/Slice0/Obligations.lean ====
section
/-! DEFINITION. The statements for the provers, from the numbered rules of spec/. The predicates of the first part say
what a rule says a step leaves, register by register, in words of the spec and not in the model's operations. -/

namespace Sys2Proof.Spec

open Sys2Proof Sys2Proof.Machine

/-- The next access to take effect is `a`, and `rest` are those after it (the list is the model's own, log entry 2). -/
abbrev NextAccessIs (s : State) (a : HostAccess) (rest : List HostAccess) : Prop := s.pending = a :: rest

/-- The host's next access writes the word `w` to `CMD`, `SEL 0x21` (10_state.md R35). -/
abbrev NextIsCommand (s : State) (w : Word32) (rest : List HostAccess) : Prop :=
  NextAccessIs s (.write 0x21 w.toNat) rest

/-- Inputs, the accepted word and the host's side are as before; `source` and `resets` pick the bits of an input that
holds `⊥`. -/
structure InputsKept (s t : State) : Prop where
  data : t.data = s.data
  tlen : t.tlen = s.tlen
  source : t.source = s.source
  resets : t.resets = s.resets
  cmd : t.cmd = s.cmd
  pending : t.pending = s.pending
  readData : t.readData = s.readData

/-- The fields of `STATUS` that only the acceptance of a word writes, and its reserved bits, are as before. -/
structure LastFieldsKept (s t : State) : Prop where
  lastOp : statusLastOp t.status = statusLastOp s.status
  lastLen : statusLastLen t.status = statusLastLen s.status
  bit3 : t.status.extractLsb' 3 1 = s.status.extractLsb' 3 1
  high : t.status.extractLsb' 16 16 = s.status.extractLsb' 16 16

/-- Every output register holds `⊥`. -/
structure NoOutputs (t : State) : Prop where
  result : t.result = none
  lane : ∀ k : Fin 4, t.lane[k] = none
  packet : ∀ i : Fin 32, t.packet[i] = none

/-- What a successful word command leaves: `RESULT = v`, `KIND = 1`, `LANE` and `PACKET` `⊥`, and nothing else changed
(44_host_interface.md R99). -/
structure WordCommitted (v : Word64) (s t : State) : Prop where
  result : t.result = some v
  lane : ∀ k : Fin 4, t.lane[k] = none
  packet : ∀ i : Fin 32, t.packet[i] = none
  kind : statusKind t.status = 1
  fault : statusFault t.status = statusFault s.status
  cause : statusCause t.status = statusCause s.status
  last : LastFieldsKept s t
  inputs : InputsKept s t

/-- What a successful `HH.PACKET` leaves: `PACKET[i] = P i`, byte `m` of `LANE[k]` is `P (8k+m)`, `KIND = 2`, `RESULT` `⊥`,
and nothing else changed (41_highwayhash.md R81, 44_host_interface.md R99). -/
structure PacketCommitted (P : Nat → Byte) (s t : State) : Prop where
  result : t.result = none
  lane : ∀ k : Fin 4, ∃ v : Word64, t.lane[k] = some v ∧ ∀ m : Fin 8, v.extractLsb' (8 * m.val) 8 = P (8 * k.val + m.val)
  packet : ∀ i : Fin 32, t.packet[i] = some (P i.val)
  kind : statusKind t.status = 2
  fault : statusFault t.status = statusFault s.status
  cause : statusCause t.status = statusCause s.status
  last : LastFieldsKept s t
  inputs : InputsKept s t

/-- What `raise Fault(c)` leaves: `FAULT = 1`, the cause code, `KIND = 0`, every output `⊥`, and nothing else changed
(60_exceptions.md R111). -/
structure FaultTaken (code : BitVec 4) (s t : State) : Prop where
  fault : statusFault t.status = 1
  cause : statusCause t.status = code
  kind : statusKind t.status = 0
  outputs : NoOutputs t
  last : LastFieldsKept s t
  inputs : InputsKept s t

/-- `a` is `s` once the word `w` of its next access has been accepted: the access is off the list, `CMD` holds `w`,
`LAST_OP` and `LAST_LEN` hold its fields, and nothing else has changed (44_host_interface.md R98). -/
structure WordAccepted (w : Word32) (rest : List HostAccess) (s a : State) : Prop where
  cmd : a.cmd = w
  lastOp : statusLastOp a.status = w.extractLsb' 0 3
  lastLen : statusLastLen a.status = w.extractLsb' 3 5
  kind : statusKind a.status = statusKind s.status
  fault : statusFault a.status = statusFault s.status
  cause : statusCause a.status = statusCause s.status
  bit3 : a.status.extractLsb' 3 1 = s.status.extractLsb' 3 1
  high : a.status.extractLsb' 16 16 = s.status.extractLsb' 16 16
  others : a = { s with cmd := a.cmd, status := a.status, pending := rest }

/-- `DATA[j] = D j` for every `j < n`. -/
abbrev DataIs (s : State) (n : Nat) (D : Nat → Byte) : Prop :=
  ∀ j : Fin 32, j.val < n → s.data[j] = some (D j.val)

/-- The little-endian number of the first `n` bytes: `Σ D i · 2^(8i)`. -/
def sumLE (n : Nat) (D : Nat → Byte) : Nat := ∑ i ∈ Finset.range n, (D i).toNat * 2 ^ (8 * i)

/-- `D i` for `i < n`, then zero bytes. -/
def padded (n : Nat) (D : Nat → Byte) (i : Nat) : Byte := if i < n then D i else 0

/-- `8 - n` zero bytes, then `D 0 … D (n-1)`. -/
def raised (n : Nat) (D : Nat → Byte) (i : Nat) : Byte := if 8 - n ≤ i then D (i - (8 - n)) else 0

/-- Byte `j` of the packet for a tail region of `n ≤ 31` bytes: the copy of 41_highwayhash.md R78, the window of R79 with
16 bytes or more, else the three positions of R80 when bytes are left over, and 0 elsewhere (R77). -/
def packetByte (n : Nat) (D : Nat → Byte) (j : Nat) : Byte :=
  if j < 4 * (n / 4) then D j
  else if 16 ≤ n then if 28 ≤ j then D (n - 4 + (j - 28)) else 0
  else if n % 4 = 0 then 0
  else if j = 16 then D (4 * (n / 4))
  else if j = 17 then D (4 * (n / 4) + n % 4 / 2)
  else if j = 18 then D (n - 1)
  else 0

/-- The cause code of the first fault condition that a word meets, in the order of 60_exceptions.md R110 and with the
codes of R108; 0 when it meets none. `tlen` is what `TLEN` holds. -/
def firstCause (w : Word32) (tlen : Option Word64) : BitVec 4 :=
  if 4 ≤ (w.extractLsb' 0 3).toNat then 1
  else if w.extractLsb' 8 24 ≠ 0 then 2
  else if (w.extractLsb' 0 3).toNat ≠ 1 ∧ 8 ≤ (w.extractLsb' 3 5).toNat then 3
  else if (w.extractLsb' 0 3).toNat = 3 ∧ (w.extractLsb' 3 5).toNat ≤ 6 then 5
  else if (w.extractLsb' 0 3).toNat = 1 ∧
      tlen.map (fun T => T.toNat % 32) ≠ some (w.extractLsb' 3 5).toNat then 4
  else 0

/-- The command's length contract holds, and `TLEN` holds a value where the command reads it (30_encoding.md R64). -/
def LengthLegal (i : Instr) (s : State) : Prop :=
  match i with
  | .fhTail n => n ≤ 7
  | .hhPacket n => ∃ T : Word64, s.tlen = some T ∧ n = T.toNat % 32
  | .mirTail n => n ≤ 7
  | .mumTail n => n = 7

/-- The command uses an input that holds `⊥`: `HH.PACKET` a `TLEN` that holds `⊥`, or a command that passes its length
check a byte of `DATA` below its length (44_host_interface.md R101). -/
def UsesUnwritten (i : Instr) (s : State) : Prop :=
  (∃ n, i = .hhPacket n ∧ s.tlen = none) ∨ (LengthLegal i s ∧ ∃ j : Fin 32, j.val < i.len ∧ s.data[j] = none)

/-- `s` with every input that holds `⊥` holding its free bits instead (log entry 1). -/
def inputsFilled (s : State) : State :=
  { s with data := Vector.ofFn fun j => some (dataBits j.val s), tlen := some (tlenBits s) }

/-- The accesses performed one after another, each on the state the one before it left; a refused one ends the run. -/
def performInOrder (accesses : List HostAccess) (s : State) : Host.Outcome State Fault Refusal :=
  match accesses with
  | [] => .next s
  | a :: later =>
    match performAccess a s with
    | .next t => performInOrder later t
    | .fault f => .fault f
    | .refused r => .refused r

/-- What reset leaves in every register (10_state.md R37). -/
structure ResetValues (t : State) : Prop where
  data : ∀ i : Fin 32, t.data[i] = none
  tlen : t.tlen = none
  cmd : t.cmd = 0x00000000
  status : t.status = 0x00000000
  outputs : NoOutputs t

end Sys2Proof.Spec

open Sys2Proof Sys2Proof.Machine Sys2Proof.Spec

/-! ### Encoding -/

/-- 30_encoding.md R57, R58, R60: no bit of an encoding is dropped. -/
def Obligations.DecodeInvertsEncode : Prop :=
  ∀ i : Instr, WellFormed i → decode (encode i) = .ok i

/-- 30_encoding.md R57, R60, R63: a word that selects a command is the one encoding of that command. -/
def Obligations.EncodeInvertsDecode : Prop :=
  ∀ (w : Word32) (i : Instr), decode w = .ok i → WellFormed i ∧ encode i = w

/-- Mask and match of each row, the operand field and the encoding strings: 30_encoding.md R61, "A word `w` selects a
command exactly when …", which the spec derives from R57 and R60. -/
def Obligations.MaskAndMatchSelectTheCommand : Prop :=
  (∀ (w : Word32) (n : Nat),
    (decode w = .ok (.fhTail n) ↔ w &&& 0xFFFFFF07 = 0x00000000 ∧ n = (w.extractLsb' 3 5).toNat) ∧
    (decode w = .ok (.hhPacket n) ↔ w &&& 0xFFFFFF07 = 0x00000001 ∧ n = (w.extractLsb' 3 5).toNat) ∧
    (decode w = .ok (.mirTail n) ↔ w &&& 0xFFFFFF07 = 0x00000002 ∧ n = (w.extractLsb' 3 5).toNat) ∧
    (decode w = .ok (.mumTail n) ↔ w &&& 0xFFFFFF07 = 0x00000003 ∧ n = (w.extractLsb' 3 5).toNat)) ∧
  (∀ (w : Word32) (i : Instr), w.extractLsb' 8 24 ≠ 0 → decode w ≠ .ok i) ∧
  (∀ L : BitVec 5,
    decode (0#24 ++ L ++ 0b000#3) = .ok (.fhTail L.toNat) ∧
    decode (0#24 ++ L ++ 0b001#3) = .ok (.hhPacket L.toNat) ∧
    decode (0#24 ++ L ++ 0b010#3) = .ok (.mirTail L.toNat) ∧
    decode (0#24 ++ L ++ 0b011#3) = .ok (.mumTail L.toNat))

/-- 30_encoding.md R59, R62, R63: decoding is total; every word selects a command or has one named error. -/
def Obligations.DecodingIsTotalByName : Prop :=
  ∀ w : Word32,
    (decode w = .error .illegalOp ↔ 4 ≤ (w.extractLsb' 0 3).toNat) ∧
    (decode w = .error .reservedBits ↔ (w.extractLsb' 0 3).toNat < 4 ∧ w.extractLsb' 8 24 ≠ 0) ∧
    ((∃ i, decode w = .ok i) ↔ (w.extractLsb' 0 3).toNat < 4 ∧ w.extractLsb' 8 24 = 0)

/-- The encoding examples of 30_encoding.md R68, which the spec derives from R57 and R60. -/
def Obligations.EncodingExamplesDecode : Prop :=
  decode 0x00000038 = .ok (.fhTail 7) ∧ decode 0x00000000 = .ok (.fhTail 0) ∧
  decode 0x000000F9 = .ok (.hhPacket 31) ∧ decode 0x00000019 = .ok (.hhPacket 3) ∧
  decode 0x00000001 = .ok (.hhPacket 0) ∧ decode 0x0000002A = .ok (.mirTail 5) ∧
  decode 0x0000003B = .ok (.mumTail 7) ∧ decode 0x00000004 = .error .illegalOp ∧
  decode 0x0000013B = .error .reservedBits

/-! ### The command step -/

/-- 44_host_interface.md R98: a write of a word to `CMD` is one step: ignored in the fault state, else the word is
accepted, decoded and executed, and what the command leaves is a fault taken or its outputs committed. -/
def Obligations.CommandWriteIsOneStep : Prop :=
  ∀ (s : State) (w : Word32) (rest : List HostAccess), NextIsCommand s w rest →
    (statusFault s.status = 1 → step s = .next { s with pending := rest }) ∧
    (statusFault s.status = 0 → ∃ a, WordAccepted w rest s a ∧
      (∀ i, decode w = .ok i → step s = exec i a) ∧
      (∀ i t, decode w = .ok i → exec i a = .next t →
        (∃ code, FaultTaken code a t) ∨ (∃ v, WordCommitted v a t) ∨ ∃ P, PacketCommitted P a t) ∧
      (decode w = .error .illegalOp → ∃ t, step s = .next t ∧ FaultTaken 1 a t) ∧
      (decode w = .error .reservedBits → ∃ t, step s = .next t ∧ FaultTaken 2 a t))

/-- The word placed where the step takes its next command from is the one that runs (log entry 2 says how a command
comes to the unit). -/
def Obligations.FetchedWordRunsNext : Prop :=
  ∀ (s : State) (i : Instr), WellFormed i → statusFault s.status = 0 →
    ∃ a, WordAccepted (encode i) s.pending s a ∧ step (s.withFetchWord 32 (encode i).toNat) = exec i a

/-- 30_encoding.md R62. -/
def Obligations.ReservedOpcodeTakesIllegalOp : Prop :=
  ∀ (s : State) (w : Word32) (rest : List HostAccess), NextIsCommand s w rest → statusFault s.status = 0 →
    4 ≤ (w.extractLsb' 0 3).toNat →
    ∃ a t, WordAccepted w rest s a ∧ step s = .next t ∧ FaultTaken 1 a t

/-- 30_encoding.md R63: nonzero reserved bits fault, and there is no other kind of encoding. -/
def Obligations.ReservedBitsTakeReservedBits : Prop :=
  (∀ (s : State) (w : Word32) (rest : List HostAccess), NextIsCommand s w rest → statusFault s.status = 0 →
    (w.extractLsb' 0 3).toNat < 4 → w.extractLsb' 8 24 ≠ 0 →
    ∃ a t, WordAccepted w rest s a ∧ step s = .next t ∧ FaultTaken 2 a t) ∧
  (∀ w : Word32, (∃ i, decode w = .ok i) ∨ decode w = .error .illegalOp ∨ decode w = .error .reservedBits)

/-- 60_exceptions.md R110: at most one fault, the first in the order of the rule. (What `HH.PACKET` does while `TLEN` holds
`⊥` is stated by UnwrittenInputsEnterWithTheirBits.) -/
def Obligations.FirstFaultInPriorityOrder : Prop :=
  ∀ (s t : State) (w : Word32) (rest : List HostAccess), NextIsCommand s w rest →
    statusFault s.status = 0 → statusCause s.status = 0 →
    ((w.extractLsb' 0 3).toNat = 1 → w.extractLsb' 8 24 = 0 → s.tlen ≠ none) → step s = .next t →
    (statusFault t.status = 1 ↔ statusCause t.status ≠ 0) ∧
    statusCause t.status = firstCause w s.tlen

/-- Every command completes, and every `CMD` write is a step that is taken, in a state whose inputs hold no value too: that
such a run goes on, where 44_host_interface.md R101 has the spec's model refuse, is the model's choice (log entry 1;
`refusingStep` refuses it). With the inputs the word names written (70_reset_and_hazards.md R124) the step leaves no mark
(log entry 12). -/
def Obligations.CommandsAlwaysComplete : Prop :=
  (∀ (i : Instr) (s : State), ∃ t, exec i s = .next t) ∧
  (∀ (s : State) (w : Word32) (rest : List HostAccess), NextIsCommand s w rest →
    ∃ t, step s = .next t ∧
      ((∀ j : Fin 32, j.val < (w.extractLsb' 3 5).toNat → s.data[j] ≠ none) →
        ((w.extractLsb' 0 3).toNat = 1 → s.tlen ≠ none) → t.marked = s.marked))

/-- 95_test_vectors.md, the `STATUS` words after a success and after a fault, from every coherent state. -/
def Obligations.StatusWordAfterCommand : Prop :=
  ∀ (s t : State) (w : Word32) (rest : List HostAccess), Coherent s → statusFault s.status = 0 →
    NextIsCommand s w rest → step s = .next t →
    (statusFault t.status = 0 →
      t.status = ((w.extractLsb' 3 5).setWidth 32 <<< 11) ||| ((w.extractLsb' 0 3).setWidth 32 <<< 8) |||
        (if w.extractLsb' 0 3 = 1 then 2 else 1)) ∧
    (statusFault t.status = 1 →
      t.status = ((w.extractLsb' 3 5).setWidth 32 <<< 11) ||| ((w.extractLsb' 0 3).setWidth 32 <<< 8) |||
        ((statusCause t.status).setWidth 32 <<< 4) ||| 4)

/-- 20_memory.md R42, "Issuing the same command word twice …", which the spec derives from R19 and R98: the same word
issued twice gives the same outputs and the same `STATUS`. -/
def Obligations.RepeatedCommandChangesNothing : Prop :=
  ∀ (s t : State) (w : Word32) (rest : List HostAccess),
    NextIsCommand s w (.write 0x21 w.toNat :: rest) → step s = .next t →
    ∃ u, step t = .next u ∧ u = { t with pending := rest, clears := u.clears }

/-! ### The four commands -/

/-- 40_fasthash.md R70: byte `i` of the buffer is lane `i` of the result, and the other lanes are zero. -/
def Obligations.FhTailGivesEachByteItsLane : Prop :=
  ∀ (s : State) (n : Nat) (D : Nat → Byte), n ≤ 7 → DataIs s n D →
    ∃ t v, exec (.fhTail n) s = .next t ∧ WordCommitted v s t ∧
      (∀ i, i < n → v.extractLsb' (8 * i) 8 = D i) ∧ ∀ i, n ≤ i → v.extractLsb' (8 * i) 8 = 0

/-- The word `FH.TAIL` packs, for every length it accepts: 40_fasthash.md R73, "Closed form", which the spec derives from
R70 and R71. -/
def Obligations.FhTailPacksLittleEndian : Prop :=
  ∀ (s : State) (n : Nat) (D : Nat → Byte), n ≤ 7 → DataIs s n D →
    ∃ t v, exec (.fhTail n) s = .next t ∧ WordCommitted v s t ∧ v.toNat = sumLE n D ∧
      v = le64 (padded n D 0) (padded n D 1) (padded n D 2) (padded n D 3)
        (padded n D 4) (padded n D 5) (padded n D 6) (padded n D 7)

/-- 40_fasthash.md R71: the command's word is the XOR of the lanes of its bytes from zero, and over at most eight bytes
OR and addition of the lanes give the same word ("Because the lanes are disjoint …", which the spec derives from R70). -/
def Obligations.LaneCombinersAgree : Prop :=
  (∀ (s : State) (n : Nat) (D : Nat → Byte), n ≤ 7 → DataIs s n D →
    ∃ t, exec (.fhTail n) s = .next t ∧
      t.result = some (((List.range n).map fun i => ((D i).setWidth 64 : Word64) <<< (8 * i)).foldl (· ^^^ ·) 0)) ∧
  (∀ bytes : List Byte, bytes.length ≤ 8 →
    let lanes : List Word64 := bytes.zipIdx.map fun b => (b.1.setWidth 64 : Word64) <<< (8 * b.2)
    fastHashWord bytes = lanes.foldl (· ^^^ ·) 0 ∧ fastHashWord bytes = lanes.foldl (· ||| ·) 0 ∧
      fastHashWord bytes = lanes.foldl (· + ·) 0)

/-- 41_highwayhash.md R77–R81: the packet and the lanes, for every length and every `TLEN` that matches it. -/
def Obligations.HhPacketBuildsPacketAndLanes : Prop :=
  ∀ (s : State) (n : Nat) (T : Word64) (D : Nat → Byte), s.tlen = some T → n = T.toNat % 32 → DataIs s n D →
    ∃ t, exec (.hhPacket n) s = .next t ∧ PacketCommitted (packetByte n D) s t

/-- 41_highwayhash.md R75: the length quantities. -/
def Obligations.LengthQuantities : Prop :=
  ∀ T : Word64,
    remainderOf T = T.toNat % 32 ∧ diff4Of (remainderOf T) = 4 * (T.toNat % 32 / 4) ∧
    mod4Of (remainderOf T) = T.toNat % 4 ∧
    remainderOf T = diff4Of (remainderOf T) + mod4Of (remainderOf T) ∧ remainderOf T ≤ 31 ∧
    (remainderOf T = 0 ↔ 32 ∣ T.toNat)

/-- 41_highwayhash.md R83, "Re-read overlap in the first case", which the spec derives from R78 and R79: with 16 bytes or more, the `4 - mod4` bytes of the window that step 4 had copied stand twice,
and the positions between the copy and the window are zero. -/
def Obligations.WindowRereadsCopiedBytes : Prop :=
  ∀ (s : State) (n : Nat) (T : Word64) (D : Nat → Byte), s.tlen = some T → n = T.toNat % 32 → 16 ≤ n → DataIs s n D →
    ∃ t, exec (.hhPacket n) s = .next t ∧ statusFault t.status = statusFault s.status ∧
      (∀ (j : Nat) (h : j < 4 - n % 4), t.packet[n - 4 + j]? = t.packet[28 + j]? ∧
        t.packet[n - 4 + j]? = some (some (D (n - 4 + j)))) ∧
      (∀ j : Fin 32, 4 * (n / 4) ≤ j.val → j.val < 28 → t.packet[j] = some 0)

/-- 41_highwayhash.md R84, which the spec derives from R76: every packet byte is 0 or a copy of an input byte below `remainder`. -/
def Obligations.PacketHoldsOnlyInputBytesAndZeros : Prop :=
  ∀ (s t : State) (n : Nat), exec (.hhPacket n) s = .next t → statusFault s.status = 0 → statusFault t.status = 0 →
    ∀ i : Fin 32, t.packet[i] = some 0 ∨ ∃ j, j < n ∧ t.packet[i] = some (dataBits j s)

/-- The word `MIR.TAIL` folds, for every length it accepts: 42_mirhash.md R89, "Closed form", which the spec derives from
R88. -/
def Obligations.MirTailFoldsToTheTop : Prop :=
  ∀ (s : State) (n : Nat) (D : Nat → Byte), n ≤ 7 → DataIs s n D →
    ∃ t v, exec (.mirTail n) s = .next t ∧ WordCommitted v s t ∧
      v.toNat = ∑ i ∈ Finset.range n, (D i).toNat * 2 ^ (8 * (8 - n + i)) ∧
      (∀ i, i < n → v.extractLsb' (8 * (8 - n + i)) 8 = D i) ∧
      v = le64 (raised n D 0) (raised n D 1) (raised n D 2) (raised n D 3)
        (raised n D 4) (raised n D 5) (raised n D 6) (raised n D 7) ∧
      v = BitVec.ofNat 64 (sumLE n D) <<< (8 * (8 - n))

/-- 42_mirhash.md R88: the command's word is the fold of its bytes in buffer order from 0; one fold step and its
order. -/
def Obligations.MirFoldStep : Prop :=
  (∀ (s : State) (n : Nat) (D : Nat → Byte), n ≤ 7 → DataIs s n D →
    ∃ t, exec (.mirTail n) s = .next t ∧ t.result = some (mirHashWord ((List.range n).map D))) ∧
  mirHashWord [] = 0 ∧
  (∀ (bytes : List Byte) (b : Byte),
    let acc := mirHashWord bytes
    let next := mirHashWord (bytes ++ [b])
    next = (acc >>> 8) ||| (b.setWidth 64 <<< 56) ∧ next.extractLsb' 56 8 = b ∧
      next.extractLsb' 0 56 = acc.extractLsb' 8 56)

/-- 43_mumhash.md R92: from an accumulator of 0, the low four bytes are added as a 32-bit number, then bytes 6, 5 and 4
are ORed in. -/
def Obligations.MumTailAddsThenOrs : Prop :=
  ∀ (s : State) (D : Nat → Byte), DataIs s 7 D →
    ∃ t v, exec (.mumTail 7) s = .next t ∧ WordCommitted v s t ∧
      v = (((0#64 + (le32 (D 0) (D 1) (D 2) (D 3)).setWidth 64) ||| ((D 6).setWidth 64 <<< 48)) |||
        ((D 5).setWidth 64 <<< 40)) ||| ((D 4).setWidth 64 <<< 32)

/-- The low lane is the 32-bit little-endian value with no carry beyond it, and the high lanes are the bytes 4, 5 and 6:
43_mumhash.md R94, which the spec derives from R92 and R93. -/
def Obligations.MumTailLanesTakeNoCarry : Prop :=
  ∀ (s : State) (D : Nat → Byte), DataIs s 7 D →
    ∃ t v, exec (.mumTail 7) s = .next t ∧ WordCommitted v s t ∧
      v.extractLsb' 0 32 = le32 (D 0) (D 1) (D 2) (D 3) ∧ v.extractLsb' 32 8 = D 4 ∧ v.extractLsb' 40 8 = D 5 ∧
      v.extractLsb' 48 8 = D 6 ∧ v.extractLsb' 56 8 = 0 ∧ v.toNat = sumLE 7 D

/-- 43_mumhash.md R95, which the spec derives from R93 and R94: on seven bytes `MUM.TAIL` gives the word of
`FH.TAIL`; on fewer than seven bytes it faults where `FH.TAIL` succeeds. -/
def Obligations.MumTailEqualsFhTailOnSevenBytes : Prop :=
  (∀ s : State, exec (.mumTail 7) s = exec (.fhTail 7) s) ∧
  (∀ (s : State) (D : Nat → Byte), DataIs s 7 D →
    ∃ t v, exec (.mumTail 7) s = .next t ∧ t.result = some v ∧ v.toNat = sumLE 7 D) ∧
  (∀ (s : State) (n : Nat) (D : Nat → Byte), n < 7 → DataIs s n D → statusFault s.status = 0 →
    ∃ t u, exec (.mumTail n) s = .next t ∧ statusFault t.status = 1 ∧ exec (.fhTail n) s = .next u ∧
      statusFault u.status = 0)

/-- 30_encoding.md R64: the length contracts. An encoding that breaks one decodes, and faults when it runs; one that keeps
it raises no fault. -/
def Obligations.LengthContractsFaultWhenBroken : Prop :=
  (∀ n, n ≤ 31 → decode (BitVec.ofNat 32 (8 * n)) = .ok (.fhTail n) ∧
    decode (BitVec.ofNat 32 (8 * n + 1)) = .ok (.hhPacket n) ∧
    decode (BitVec.ofNat 32 (8 * n + 2)) = .ok (.mirTail n) ∧
    decode (BitVec.ofNat 32 (8 * n + 3)) = .ok (.mumTail n)) ∧
  (∀ (s : State) (n : Nat), 8 ≤ n → ∃ t, exec (.fhTail n) s = .next t ∧ FaultTaken 3 s t) ∧
  (∀ (s : State) (n : Nat), 8 ≤ n → ∃ t, exec (.mirTail n) s = .next t ∧ FaultTaken 3 s t) ∧
  (∀ (s : State) (n : Nat), 8 ≤ n → ∃ t, exec (.mumTail n) s = .next t ∧ FaultTaken 3 s t) ∧
  (∀ (s : State) (n : Nat), n ≤ 6 → ∃ t, exec (.mumTail n) s = .next t ∧ FaultTaken 5 s t) ∧
  (∀ (s : State) (n : Nat) (T : Word64), s.tlen = some T → n ≠ T.toNat % 32 →
    ∃ t, exec (.hhPacket n) s = .next t ∧ FaultTaken 4 s t) ∧
  (∀ (s t : State) (i : Instr), LengthLegal i s → exec i s = .next t →
    statusFault t.status = statusFault s.status ∧ statusCause t.status = statusCause s.status)

/-- What the model does with an input that holds `⊥` (log entries 1 and 12; 44_host_interface.md R101, "the hardware would
compute with whatever bits the register holds after reset"): the command computes with the register's free bits, and the
state is marked exactly when such an input is used. A fault check that uses none still faults, whatever `DATA` holds. -/
def Obligations.UnwrittenInputsEnterWithTheirBits : Prop :=
  (∀ (i : Instr) (s : State), ∃ t u, exec i s = .next t ∧ exec i (inputsFilled s) = .next u ∧
    t.result = u.result ∧ t.lane = u.lane ∧ t.packet = u.packet ∧ t.status = u.status) ∧
  (∀ (i : Instr) (s t : State), exec i s = .next t →
    (t.marked = true ↔ s.marked = true ∨ UsesUnwritten i s)) ∧
  (∀ (s : State) (n : Nat), 8 ≤ n →
    (∃ t, exec (.fhTail n) s = .next t ∧ FaultTaken 3 s t) ∧ (∃ t, exec (.mirTail n) s = .next t ∧ FaultTaken 3 s t) ∧
      ∃ t, exec (.mumTail n) s = .next t ∧ FaultTaken 3 s t) ∧
  (∀ (s : State) (n : Nat), n ≤ 6 → ∃ t, exec (.mumTail n) s = .next t ∧ FaultTaken 5 s t) ∧
  (∀ (s : State) (n : Nat) (T : Word64), s.tlen = some T → n ≠ T.toNat % 32 →
    ∃ t, exec (.hhPacket n) s = .next t ∧ FaultTaken 4 s t) ∧
  (∀ (s : State) (w : Word32) (rest : List HostAccess), NextIsCommand s w rest → statusFault s.status = 0 →
    4 ≤ (w.extractLsb' 0 3).toNat ∨ w.extractLsb' 8 24 ≠ 0 →
    ∃ a t, WordAccepted w rest s a ∧ step s = .next t ∧ t.marked = s.marked ∧ FaultTaken (firstCause w s.tlen) a t)

/-- The name each refusal carries, the model's choice (log entry 5): the reserved `SEL`, then the width, then the
read-only register. No access is refused but those of 44_host_interface.md R103: a use of `⊥` is a step that is taken and
marks the state, the model's choice too (log entries 1 and 12). -/
def Obligations.OnlyUnmappedAccessesAreRefusedByName : Prop :=
  (∀ (s : State) (sel : Select) (v : Nat) (rest : List HostAccess), regOf sel = none →
    (NextAccessIs s (.read sel) rest → step s = .refused (.reservedSelect sel)) ∧
    (NextAccessIs s (.write sel v) rest → step s = .refused (.reservedSelect sel))) ∧
  (∀ (s : State) (sel : Select) (r : Reg) (v : Nat) (rest : List HostAccess), NextAccessIs s (.write sel v) rest →
    regOf sel = some r →
    (2 ^ widthOf r ≤ v → step s = .refused (.valueTooWide r)) ∧
    (v < 2 ^ widthOf r → (0x22 ≤ sel.toNat ∧ sel.toNat < 0x28) ∨ (0x40 ≤ sel.toNat ∧ sel.toNat < 0x60) →
      step s = .refused (.writesReadOnly r))) ∧
  (∀ (s : State) (r : Refusal), step s = .refused r → ∃ (sel : Select) (v : Nat),
    ((s.pending.head? = some (.read sel) ∨ s.pending.head? = some (.write sel v)) ∧
      ((0x28 ≤ sel.toNat ∧ sel.toNat < 0x40) ∨ 0x60 ≤ sel.toNat)) ∨
    (s.pending.head? = some (.write sel v) ∧
      ((0x22 ≤ sel.toNat ∧ sel.toNat < 0x28) ∨ (0x40 ≤ sel.toNat ∧ sel.toNat < 0x60) ∨
        (sel.toNat < 0x20 ∧ 2 ^ 8 ≤ v) ∨ (sel = 0x20 ∧ 2 ^ 64 ≤ v) ∨ (sel = 0x21 ∧ 2 ^ 32 ≤ v))))

/-- 10_state.md R19, R38: outputs and `STATUS` depend on nothing but `DATA[0..n-1]`, `TLEN[4:0]` for `HH.PACKET`, and the
`STATUS` the command starts with. (Two states of the same `source` and `resets`, which pick the bits of an input that holds
`⊥`, log entry 11.) -/
def Obligations.OutcomeDependsOnlyOnTheInputsRead : Prop :=
  ∀ (i : Instr) (s₁ s₂ : State),
    (∀ j : Fin 32, j.val < i.len → s₁.data[j] = s₂.data[j]) →
    (∀ n, i = .hhPacket n → s₁.tlen.map (fun T => T.extractLsb' 0 5) = s₂.tlen.map (fun T => T.extractLsb' 0 5)) →
    s₁.status = s₂.status → s₁.source = s₂.source → s₁.resets = s₂.resets → s₁.marked = s₂.marked →
    ∃ t₁ t₂, exec i s₁ = .next t₁ ∧ exec i s₂ = .next t₂ ∧ t₂.result = t₁.result ∧ t₂.lane = t₁.lane ∧
      t₂.packet = t₁.packet ∧ t₂.status = t₁.status ∧ t₂.marked = t₁.marked

/-- 44_host_interface.md R101, 92_eei_decisions.md D18: whatever values the unwritten inputs hold, a command that leaves no
mark gives the same outputs (log entry 12). -/
def Obligations.UnwrittenBitsNeverReachAnUnmarkedOutput : Prop :=
  ∀ (i : Instr) (s t : State) (data : Vector (Option Byte) 32) (tlen : Option Word64),
    (∀ j : Fin 32, s.data[j] ≠ none → data[j] = s.data[j]) → (s.tlen ≠ none → tlen = s.tlen) →
    exec i s = .next t → t.marked = false →
    exec i { s with data := data, tlen := tlen } = .next { t with data := data, tlen := tlen }

/-- 44_host_interface.md R99, 60_exceptions.md R111: the frame of every command. -/
def Obligations.CommandsKeepInputsAndLastFields : Prop :=
  ∀ (i : Instr) (s t : State), exec i s = .next t → InputsKept s t ∧ LastFieldsKept s t

/-- 60_exceptions.md R111: a command that raises a fault ends with the acceptance of its word, the fault fields with the
code of its cause, `KIND = 0` and every output `⊥`, and with no other effect. (For `HH.PACKET` while `TLEN` holds `⊥` see
UnwrittenInputsEnterWithTheirBits.) -/
def Obligations.FaultEntryWritesTheCause : Prop :=
  ∀ (s t : State) (w : Word32) (rest : List HostAccess), NextIsCommand s w rest → statusFault s.status = 0 →
    ((w.extractLsb' 0 3).toNat = 1 → w.extractLsb' 8 24 = 0 → s.tlen ≠ none) →
    step s = .next t → statusFault t.status = 1 →
    ∃ a, WordAccepted w rest s a ∧ FaultTaken (firstCause w s.tlen) a t

/-- 44_host_interface.md R99: a command that completes without a fault commits the outputs of its own kind and makes the
other kind `⊥`. -/
def Obligations.SuccessCommitsItsOwnKind : Prop :=
  ∀ (i : Instr) (s t : State), exec i s = .next t → statusFault s.status = 0 → statusCause s.status = 0 →
    statusFault t.status = 0 →
    statusCause t.status = 0 ∧ t.data = s.data ∧ t.tlen = s.tlen ∧
    ((∃ n, i = .hhPacket n) →
      statusKind t.status = 2 ∧ t.result = none ∧ (∀ k : Fin 4, t.lane[k] ≠ none) ∧ ∀ p : Fin 32, t.packet[p] ≠ none) ∧
    ((∀ n, i ≠ .hhPacket n) →
      statusKind t.status = 1 ∧ t.result ≠ none ∧ (∀ k : Fin 4, t.lane[k] = none) ∧ ∀ p : Fin 32, t.packet[p] = none)

/-! ### Little-endian assembly -/

/-- 00_scope.md R12: `LE64` and `LE32` are the little-endian numbers of their bytes. -/
def Obligations.LittleEndianAssembly : Prop :=
  (∀ b : Fin 8 → Byte,
    (le64 (b 0) (b 1) (b 2) (b 3) (b 4) (b 5) (b 6) (b 7)).toNat = ∑ m : Fin 8, (b m).toNat * 2 ^ (8 * m.val)) ∧
  (∀ b : Fin 4 → Byte, (le32 (b 0) (b 1) (b 2) (b 3)).toNat = ∑ m : Fin 4, (b m).toNat * 2 ^ (8 * m.val))

/-! ### Host accesses -/

/-- 10_state.md R35: the `SEL` map. -/
def Obligations.SelectMap : Prop :=
  (∀ i : Fin 32, regOf (BitVec.ofNat 7 i) = some (.data i)) ∧
  regOf 0x20 = some .tlen ∧ regOf 0x21 = some .cmd ∧ regOf 0x22 = some .status ∧ regOf 0x23 = some .result ∧
  (∀ k : Fin 4, regOf (BitVec.ofNat 7 (0x24 + k)) = some (.lane k)) ∧
  (∀ i : Fin 32, regOf (BitVec.ofNat 7 (0x40 + i)) = some (.packet i)) ∧
  (∀ sel : Select, regOf sel = none ↔ (0x28 ≤ sel.toNat ∧ sel.toNat < 0x40) ∨ 0x60 ≤ sel.toNat) ∧
  (∀ (sel : Select) (r : Reg), regOf sel = some r ↔ selOf r = sel)

/-- 44_host_interface.md R97: writes to the input registers, in every state. -/
def Obligations.InputWritesChangeOneRegister : Prop :=
  (∀ (s : State) (i : Fin 32) (b : Byte) (rest : List HostAccess),
    NextAccessIs s (.write (BitVec.ofNat 7 i) b.toNat) rest →
    ∃ t, step s = .next t ∧ t.data[i] = some b ∧ (∀ j : Fin 32, j ≠ i → t.data[j] = s.data[j]) ∧
      t = { s with data := t.data, pending := rest }) ∧
  (∀ (s : State) (T : Word64) (rest : List HostAccess), NextAccessIs s (.write 0x20 T.toNat) rest →
    step s = .next { s with tlen := some T, pending := rest }) ∧
  (∀ (s : State) (w : Word32) (rest : List HostAccess), NextIsCommand s w rest →
    step s = issueCommand w { s with pending := rest })

/-- 44_host_interface.md R100: a read of a register that holds a value returns it at its full width and changes no
register. The value read stands in the model's own `readData` (log entry 3). -/
def Obligations.ReadsReturnTheWholeRegister : Prop :=
  ∀ (s : State) (rest : List HostAccess),
    (∀ (i : Fin 32) (b : Byte), NextAccessIs s (.read (BitVec.ofNat 7 i)) rest → s.data[i] = some b →
      step s = .next { s with pending := rest, readData := some (.byte b) }) ∧
    (∀ T : Word64, NextAccessIs s (.read 0x20) rest → s.tlen = some T →
      step s = .next { s with pending := rest, readData := some (.long T) }) ∧
    (NextAccessIs s (.read 0x21) rest →
      step s = .next { s with pending := rest, readData := some (.word s.cmd) }) ∧
    (NextAccessIs s (.read 0x22) rest →
      step s = .next { s with pending := rest, readData := some (.word s.status) }) ∧
    (∀ v : Word64, NextAccessIs s (.read 0x23) rest → s.result = some v →
      step s = .next { s with pending := rest, readData := some (.long v) }) ∧
    (∀ (k : Fin 4) (v : Word64), NextAccessIs s (.read (BitVec.ofNat 7 (0x24 + k))) rest → s.lane[k] = some v →
      step s = .next { s with pending := rest, readData := some (.long v) }) ∧
    (∀ (i : Fin 32) (b : Byte), NextAccessIs s (.read (BitVec.ofNat 7 (0x40 + i))) rest → s.packet[i] = some b →
      step s = .next { s with pending := rest, readData := some (.byte b) })

/-- 20_memory.md R42: a read changes no register, and repeated at once returns the same value. -/
def Obligations.ReadsAreRepeatable : Prop :=
  ∀ (s t : State) (sel : Select) (rest : List HostAccess),
    NextAccessIs s (.read sel) (.read sel :: rest) → step s = .next t →
    t = { s with pending := .read sel :: rest, readData := t.readData, marked := t.marked } ∧
      step t = .next { t with pending := rest }

/-- What the model does with a read of `⊥` (log entries 1, 3, 11 and 12; 44_host_interface.md R102, "On the hardware the value
returned is unspecified"): it returns the register's free bits and marks the state. In a coherent state `KIND` says which
outputs hold `⊥`, and a read of the others leaves no mark. -/
def Obligations.ReadsOfNoValueReturnFreeBits : Prop :=
  ∀ (s : State) (rest : List HostAccess),
    let returns (v : RegValue) : Prop := step s = .next { s with pending := rest, readData := some v, marked := true }
    let leavesNoMark : Prop := ∃ t, step s = .next t ∧ t.marked = s.marked
    (∀ i : Fin 32, NextAccessIs s (.read (BitVec.ofNat 7 i)) rest → s.data[i] = none →
      returns (.byte (Config.freeByte s.source s.resets (BitVec.ofNat 7 i)))) ∧
    (NextAccessIs s (.read 0x20) rest → s.tlen = none → returns (.long (Config.freeLong s.source s.resets 0x20))) ∧
    (Coherent s →
      (NextAccessIs s (.read 0x23) rest → statusKind s.status ≠ 1 →
        returns (.long (Config.freeLong s.source s.clears 0x23))) ∧
      (∀ k : Fin 4, NextAccessIs s (.read (BitVec.ofNat 7 (0x24 + k))) rest → statusKind s.status ≠ 2 →
        returns (.long (Config.freeLong s.source s.clears (BitVec.ofNat 7 (0x24 + k))))) ∧
      (∀ i : Fin 32, NextAccessIs s (.read (BitVec.ofNat 7 (0x40 + i))) rest → statusKind s.status ≠ 2 →
        returns (.byte (Config.freeByte s.source s.clears (BitVec.ofNat 7 (0x40 + i))))) ∧
      (NextAccessIs s (.read 0x23) rest → statusKind s.status = 1 → leavesNoMark) ∧
      (∀ k : Fin 4, NextAccessIs s (.read (BitVec.ofNat 7 (0x24 + k))) rest → statusKind s.status = 2 →
        leavesNoMark) ∧
      (∀ i : Fin 32, NextAccessIs s (.read (BitVec.ofNat 7 (0x40 + i))) rest → statusKind s.status = 2 →
        leavesNoMark))

/-- 44_host_interface.md R103: the accesses that have no step. -/
def Obligations.UnmappedAccessesAreRefused : Prop :=
  ∀ (s : State) (sel : Select) (v : Nat) (rest : List HostAccess),
    ((0x28 ≤ sel.toNat ∧ sel.toNat < 0x40) ∨ 0x60 ≤ sel.toNat →
      (NextAccessIs s (.read sel) rest → ∃ r, step s = .refused r) ∧
      (NextAccessIs s (.write sel v) rest → ∃ r, step s = .refused r)) ∧
    ((0x22 ≤ sel.toNat ∧ sel.toNat < 0x28) ∨ (0x40 ≤ sel.toNat ∧ sel.toNat < 0x60) →
      NextAccessIs s (.write sel v) rest → ∃ r, step s = .refused r) ∧
    (NextAccessIs s (.write sel v) rest →
      (sel.toNat < 0x20 → 2 ^ 8 ≤ v → ∃ r, step s = .refused r) ∧
      (sel = 0x20 → 2 ^ 64 ≤ v → ∃ r, step s = .refused r) ∧
      (sel = 0x21 → 2 ^ 32 ≤ v → ∃ r, step s = .refused r))

/-- 44_host_interface.md R97–R103, 70_reset_and_hazards.md R124, R125: a host that has written its inputs and keeps the
rules of access is never refused, and the state is never marked (log entry 12). -/
def Obligations.AllowedAccessesAreNeverRefused : Prop :=
  ∀ (s : State) (a : HostAccess) (rest : List HostAccess), Coherent s → InputsWritten s → NextAccessIs s a rest →
    accessAllowed a s = true → ∃ t, step s = .next t ∧ t.pending = rest ∧ t.marked = s.marked

/-- 70_reset_and_hazards.md R121: `Reset`, accepted in every state. -/
def Obligations.ResetRestoresEveryRegister : Prop :=
  ∀ (s : State) (rest : List HostAccess), NextAccessIs s .reset rest →
    ∃ t, step s = .next t ∧ ResetValues t ∧ t.pending = rest

/-- 10_state.md R37, 70_reset_and_hazards.md R122: the first state holds the reset values. -/
def Obligations.PowerOnHoldsResetValues : Prop :=
  ResetValues State.reset ∧ Sys2Proof.core.reset = State.reset

/-- 60_exceptions.md R119: with no access issued (the list is the model's, log entry 2) the unit keeps every register. -/
def Obligations.IdleKeepsEverything : Prop :=
  ∀ s : State, s.pending = [] → step s = .next s

/-- 20_memory.md R46: accesses take effect one at a time in the order issued, off the model's own list (log entry 2). A
step performs the first access; a run of as many steps as there are accesses performs exactly those, in order, and
leaves the accesses issued after them. -/
def Obligations.AccessesTakeEffectInIssueOrder : Prop :=
  (∀ (s : State) (a : HostAccess) (rest : List HostAccess), NextAccessIs s a rest →
    step s = performAccess a { s with pending := rest }) ∧
  (∀ (s : State) (first rest : List HostAccess), s.pending = first ++ rest →
    Host.Core.run Sys2Proof.core first.length s = performInOrder first { s with pending := rest }) ∧
  (∀ (k : Nat) (s t : State), Host.Core.run Sys2Proof.core k s = .next t → t.pending = s.pending.drop k)

/-! ### Whole-machine rules -/

/-- `State.reset` is coherent. -/
def Obligations.ResetIsCoherent : Prop := Coherent State.reset

/-- Every step keeps the rules about `STATUS`, `CMD` and the outputs. -/
def Obligations.StepKeepsCoherent : Prop :=
  ∀ s t : State, Coherent s → step s = .next t → Coherent t

/-- 60_exceptions.md R113: what the fault state accepts and what it ignores, and that nothing but a `Reset` leaves it. The
value a read returns stands in `readData`, the model's choice (log entry 3). -/
def Obligations.FaultStateIgnoresCommands : Prop :=
  ∀ (s : State) (rest : List HostAccess), statusFault s.status = 1 →
    (∀ w : Word32, NextIsCommand s w rest → step s = .next { s with pending := rest }) ∧
    (∀ (i : Fin 32) (b : Byte), NextAccessIs s (.write (BitVec.ofNat 7 i) b.toNat) rest →
      step s = .next { s with data := s.data.set i (some b), pending := rest }) ∧
    (∀ T : Word64, NextAccessIs s (.write 0x20 T.toNat) rest →
      step s = .next { s with tlen := some T, pending := rest }) ∧
    (∀ (sel : Select) (r : Reg) (v : RegValue), NextAccessIs s (.read sel) rest → regOf sel = some r →
      holdsValue r s = true → readReg r s = v → step s = .next { s with pending := rest, readData := some v }) ∧
    (∀ (a : HostAccess) (t : State), NextAccessIs s a rest → a ≠ .reset → step s = .next t →
      statusFault t.status = 1) ∧
    (NextAccessIs s .reset rest → ∃ t, step s = .next t ∧ statusFault t.status = 0)

/-- 60_exceptions.md R114: over any number of accesses, nothing but a `Reset` leaves the fault state or changes `CMD`,
`STATUS` or an output in it. -/
def Obligations.OnlyResetLeavesTheFaultState : Prop :=
  ∀ (k : Nat) (s t : State), statusFault s.status = 1 → HostAccess.reset ∉ s.pending.take k →
    Host.Core.run Sys2Proof.core k s = .next t →
    statusFault t.status = 1 ∧ t.cmd = s.cmd ∧ t.status = s.status ∧ t.result = s.result ∧ t.lane = s.lane ∧
      t.packet = s.packet

/-- 60_exceptions.md R116, 10_state.md R27: `FAULT_OUT` rises only on a `CMD` write and falls only on `Reset`. -/
def Obligations.FaultOutChangesOnlyOnCommandAndReset : Prop :=
  ∀ s t : State, step s = .next t →
    faultOut t = statusFault t.status ∧
    (faultOut s = 0 → faultOut t = 1 → ∃ v, s.pending.head? = some (.write 0x21 v)) ∧
    (faultOut s = 1 → faultOut t = 0 → s.pending.head? = some .reset)

/-- 10_state.md R22, 44_host_interface.md R99: only a write to it or a reset changes an input register. -/
def Obligations.OnlyHostWritesChangeInputs : Prop :=
  ∀ s t : State, step s = .next t → s.pending.head? ≠ some .reset →
    (∀ i : Fin 32, (∀ v, s.pending.head? ≠ some (.write (BitVec.ofNat 7 i) v)) → t.data[i] = s.data[i]) ∧
    ((∀ v, s.pending.head? ≠ some (.write 0x20 v)) → t.tlen = s.tlen) ∧ t.resets = s.resets

/-- 20_memory.md R42, R52: only a command or a reset changes `CMD`, `STATUS` or an output. -/
def Obligations.OnlyCommandsAndResetChangeOutputs : Prop :=
  ∀ s t : State, step s = .next t → s.pending.head? ≠ some .reset →
    (∀ v, s.pending.head? ≠ some (.write 0x21 v)) →
    t.cmd = s.cmd ∧ t.status = s.status ∧ t.result = s.result ∧ t.lane = s.lane ∧ t.packet = s.packet ∧
      t.clears = s.clears

/-- The mark that R101 and R102 speak of (log entry 12): it stays once it is set, and nothing sets it but a read of a
register that holds `⊥` or a command that uses an input that holds `⊥`. -/
def Obligations.OnlyUsesOfNoValueMark : Prop :=
  ∀ s t : State, step s = .next t →
    (s.marked = true → t.marked = true) ∧
    (t.marked = true → s.marked = true ∨
      (∃ sel r, s.pending.head? = some (.read sel) ∧ regOf sel = some r ∧ holdsValue r s = false) ∨
      (∃ (w : Word32) (i : Instr), s.pending.head? = some (.write 0x21 w.toNat) ∧ statusFault s.status = 0 ∧
        decode w = .ok i ∧ UsesUnwritten i s))

/-- What `refusingStep` refuses (44_host_interface.md R101, R102; 92_eei_decisions.md D18, D19): a command that uses an input
that holds `⊥`, a read of a register that holds `⊥`, and every access once the state is marked (that nothing clears the
mark is the model's choice, log entry 12). Every other access has the step of `step`, the fault checks that use no `⊥`
among them. -/
def Obligations.RefusingStepRefusesUsesOfNoValue : Prop :=
  (∀ (s : State) (w : Word32) (rest : List HostAccess) (i : Instr), NextIsCommand s w rest → statusFault s.status = 0 →
    decode w = .ok i → UsesUnwritten i s → refusingStep s = none) ∧
  (∀ (s : State) (sel : Select) (r : Reg) (rest : List HostAccess), NextAccessIs s (.read sel) rest →
    regOf sel = some r → holdsValue r s = false → refusingStep s = none) ∧
  (∀ s : State, s.marked = true → refusingStep s = none) ∧
  (∀ s t : State, refusingStep s = some t → step s = .next t ∧ t.marked = false) ∧
  (∀ s t : State, step s = .next t → s.marked = false →
    (∀ sel r, s.pending.head? = some (.read sel) → regOf sel = some r → holdsValue r s = true) →
    (∀ (w : Word32) (i : Instr), s.pending.head? = some (.write 0x21 w.toNat) → statusFault s.status = 0 →
      decode w = .ok i → ¬ UsesUnwritten i s) →
    refusingStep s = some t)

/-- How the model's own fields pick the free bits of log entry 11: the source never changes, `resets` goes up by one on a
`Reset` and on nothing else, and a register that comes to hold `⊥` gets new bits. -/
def Obligations.NewFreeBitsWheneverAValueIsLost : Prop :=
  ∀ s t : State, step s = .next t →
    t.source = s.source ∧ t.resets = s.resets + (if s.pending.head? = some .reset then 1 else 0) ∧
    s.clears ≤ t.clears ∧
    (∀ i : Fin 32, s.data[i] ≠ none → t.data[i] = none → s.resets < t.resets) ∧
    (s.tlen ≠ none → t.tlen = none → s.resets < t.resets) ∧
    (s.result ≠ none → t.result = none → s.clears < t.clears) ∧
    (∀ k : Fin 4, s.lane[k] ≠ none → t.lane[k] = none → s.clears < t.clears) ∧
    (∀ i : Fin 32, s.packet[i] ≠ none → t.packet[i] = none → s.clears < t.clears)

/-! ### Assembler and platform -/

/-- 30_encoding.md R66: the access of each line of the assembler. That `wr` assembles with a value too wide for its
register is the model's choice (log entry 8). -/
def Obligations.AssemblerLines : Prop :=
  (∀ n, n ≤ 31 →
    assemble (.command (.fhTail n)) = some [.write 0x21 (8 * n + 0)] ∧
    assemble (.command (.hhPacket n)) = some [.write 0x21 (8 * n + 1)] ∧
    assemble (.command (.mirTail n)) = some [.write 0x21 (8 * n + 2)] ∧
    assemble (.command (.mumTail n)) = some [.write 0x21 (8 * n + 3)]) ∧
  (∀ i : Instr, 31 < i.len → assemble (.command i) = none) ∧
  (∀ (sel : Select) (v : Nat), assemble (.wr sel.toNat v) = some [.write sel v] ∧
    assemble (.rd sel.toNat) = some [.read sel]) ∧
  assemble .reset = some [.reset]

/-- 30_encoding.md R67: the expansions of the pseudo-instructions. -/
def Obligations.AssemblerExpansions : Prop :=
  (∀ i v, i ≤ 31 → v ≤ 255 → assemble (.wd i v) = assemble (.wr i v)) ∧
  (∀ i b, i ≤ 31 → assemble (.wbuf i [b]) = assemble (.wr i b)) ∧
  (∀ i b bytes, bytes ≠ [] → i + bytes.length ≤ 31 →
    assemble (.wbuf i (b :: bytes)) =
      (assemble (.wr i b)).bind fun first => (assemble (.wbuf (i + 1) bytes)).map (first ++ ·)) ∧
  (∀ v, assemble (.wt v) = assemble (.wr 0x20 v)) ∧
  (∀ t, assemble (.hhTotal t) =
    (assemble (.wr 0x20 t)).bind fun first => (assemble (.command (.hhPacket (t % 32)))).map (first ++ ·)) ∧
  (∀ w, w < 2 ^ 32 → assemble (.cmd w) = assemble (.wr 0x21 w)) ∧
  assemble .rdStatus = assemble (.rd 0x22) ∧ assemble .rdResult = assemble (.rd 0x23) ∧
  (∀ k, k ≤ 3 → assemble (.rdLane k) = assemble (.rd (0x24 + k))) ∧
  (∀ i, i ≤ 31 → assemble (.rdPacket i) = assemble (.rd (0x40 + i)))

/-- 20_memory.md R55, 60_exceptions.md R120: a step of one instance is that instance's own step, leaves the others alone,
and commutes with a step of another. -/
def Obligations.InstancesShareNothing : Prop :=
  ∀ (n : Nat) (p : Platform n) (k : Fin n),
    (∀ q, platformStep k p = .next q → step p[k] = .next q[k] ∧ ∀ j : Fin n, j ≠ k → q[j] = p[j]) ∧
    (∀ s, step p[k] = .next s → ∃ q, platformStep k p = .next q ∧ q[k] = s) ∧
    (∀ (j : Fin n) (q r : Platform n), j ≠ k → platformStep j p = .next q → platformStep k p = .next r →
      ∃ u, platformStep k q = .next u ∧ platformStep j r = .next u)
end

