-- ==== Sys2Proof/Laws/Decode.lean ====
section
/-! SUPPORT. The command format: a word is its three fields, a command is well formed when its byte count fits, and
decoding has six cases. -/

namespace Sys2Proof

theorem wellFormed_iff (i : Instr) : WellFormed i ↔ i.len ≤ 31 := by
  cases i <;> exact decide_eq_true_iff

/-- The fields of a word laid out from its parts. -/
theorem fields_append (len : BitVec 5) (op : BitVec 3) :
    opField (0#24 ++ len ++ op) = op ∧ lenField (0#24 ++ len ++ op) = len ∧ rsvField (0#24 ++ len ++ op) = 0 := by
  revert len op
  decide

/-- A word is `RSV ++ LEN ++ OP` (30_encoding.md R57). -/
theorem word_eq_fields (w : Word32) : w = rsvField w ++ lenField w ++ opField w := by
  unfold rsvField lenField opField
  refine BitVec.eq_of_getLsbD_eq fun i hi => ?_
  simp only [BitVec.getLsbD_append, BitVec.getLsbD_extractLsb']
  split
  · simp_all
  · split
    · simp [show i - 3 < 5 by omega, show 3 + (i - 3) = i by omega]
    · simp [show 8 + (i - 3 - 5) = i by omega, show i - 3 - 5 < 24 by omega]

theorem opField_cases (w : Word32) :
    opField w = 0 ∨ opField w = 1 ∨ opField w = 2 ∨ opField w = 3 ∨ 4 ≤ (opField w).toNat := by
  have : ∀ v : BitVec 3, v = 0 ∨ v = 1 ∨ v = 2 ∨ v = 3 ∨ 4 ≤ v.toNat := by decide
  exact this _

theorem commandOf_of_ge {n : Nat} (h : 4 ≤ n) : commandOf n = none := by
  match n, h with
  | n + 4, _ => rfl

/-- The six cases of the decoder (30_encoding.md R59), each with the fields it holds for. -/
theorem decode_cases (w : Word32) :
    (4 ≤ (opField w).toNat ∧ decode w = .error .illegalOp) ∨
    ((opField w).toNat < 4 ∧ rsvField w ≠ 0 ∧ decode w = .error .reservedBits) ∨
    (opField w = 0 ∧ rsvField w = 0 ∧ decode w = .ok (.fhTail (lenField w).toNat)) ∨
    (opField w = 1 ∧ rsvField w = 0 ∧ decode w = .ok (.hhPacket (lenField w).toNat)) ∨
    (opField w = 2 ∧ rsvField w = 0 ∧ decode w = .ok (.mirTail (lenField w).toNat)) ∨
    (opField w = 3 ∧ rsvField w = 0 ∧ decode w = .ok (.mumTail (lenField w).toNat)) := by
  unfold decode
  rcases opField_cases w with h | h | h | h | h
  · by_cases hr : rsvField w = 0#24 <;> simp [h, hr, commandOf]
  · by_cases hr : rsvField w = 0#24 <;> simp [h, hr, commandOf]
  · by_cases hr : rsvField w = 0#24 <;> simp [h, hr, commandOf]
  · by_cases hr : rsvField w = 0#24 <;> simp [h, hr, commandOf]
  · simp [h, commandOf_of_ge h]

end Sys2Proof
end

