-- ==== Sys2Proof/Laws/State.lean ====
section
/-! SUPPORT. One lemma per field per update, true by `rfl`, so that no proof unfolds a record update. -/

namespace Sys2Proof.Machine

@[simp] theorem noteUse_data (held : Bool) (s : State) : (noteUse held s).data = s.data := rfl
@[simp] theorem noteUse_tlen (held : Bool) (s : State) : (noteUse held s).tlen = s.tlen := rfl
@[simp] theorem noteUse_cmd (held : Bool) (s : State) : (noteUse held s).cmd = s.cmd := rfl
@[simp] theorem noteUse_status (held : Bool) (s : State) : (noteUse held s).status = s.status := rfl
@[simp] theorem noteUse_result (held : Bool) (s : State) : (noteUse held s).result = s.result := rfl
@[simp] theorem noteUse_lane (held : Bool) (s : State) : (noteUse held s).lane = s.lane := rfl
@[simp] theorem noteUse_packet (held : Bool) (s : State) : (noteUse held s).packet = s.packet := rfl
@[simp] theorem noteUse_pending (held : Bool) (s : State) : (noteUse held s).pending = s.pending := rfl
@[simp] theorem noteUse_readData (held : Bool) (s : State) : (noteUse held s).readData = s.readData := rfl
@[simp] theorem noteUse_source (held : Bool) (s : State) : (noteUse held s).source = s.source := rfl
@[simp] theorem noteUse_resets (held : Bool) (s : State) : (noteUse held s).resets = s.resets := rfl
@[simp] theorem noteUse_clears (held : Bool) (s : State) : (noteUse held s).clears = s.clears := rfl
@[simp] theorem noteUse_marked (held : Bool) (s : State) : (noteUse held s).marked = (s.marked || !held) := rfl

@[simp] theorem noteInput_data (n : Nat) (s : State) : (noteInput n s).data = s.data := rfl
@[simp] theorem noteInput_tlen (n : Nat) (s : State) : (noteInput n s).tlen = s.tlen := rfl
@[simp] theorem noteInput_cmd (n : Nat) (s : State) : (noteInput n s).cmd = s.cmd := rfl
@[simp] theorem noteInput_status (n : Nat) (s : State) : (noteInput n s).status = s.status := rfl
@[simp] theorem noteInput_result (n : Nat) (s : State) : (noteInput n s).result = s.result := rfl
@[simp] theorem noteInput_lane (n : Nat) (s : State) : (noteInput n s).lane = s.lane := rfl
@[simp] theorem noteInput_packet (n : Nat) (s : State) : (noteInput n s).packet = s.packet := rfl
@[simp] theorem noteInput_pending (n : Nat) (s : State) : (noteInput n s).pending = s.pending := rfl
@[simp] theorem noteInput_readData (n : Nat) (s : State) : (noteInput n s).readData = s.readData := rfl
@[simp] theorem noteInput_source (n : Nat) (s : State) : (noteInput n s).source = s.source := rfl
@[simp] theorem noteInput_resets (n : Nat) (s : State) : (noteInput n s).resets = s.resets := rfl
@[simp] theorem noteInput_clears (n : Nat) (s : State) : (noteInput n s).clears = s.clears := rfl
@[simp] theorem noteInput_marked (n : Nat) (s : State) : (noteInput n s).marked = (s.marked || !inputHeld n s) := rfl

@[simp] theorem acceptWord_data (w : Word32) (s : State) : (acceptWord w s).data = s.data := rfl
@[simp] theorem acceptWord_tlen (w : Word32) (s : State) : (acceptWord w s).tlen = s.tlen := rfl
@[simp] theorem acceptWord_cmd (w : Word32) (s : State) : (acceptWord w s).cmd = w := rfl
@[simp] theorem acceptWord_status (w : Word32) (s : State) : (acceptWord w s).status = putLastLen (lenField w) (putLastOp (opField w) s.status) := rfl
@[simp] theorem acceptWord_result (w : Word32) (s : State) : (acceptWord w s).result = s.result := rfl
@[simp] theorem acceptWord_lane (w : Word32) (s : State) : (acceptWord w s).lane = s.lane := rfl
@[simp] theorem acceptWord_packet (w : Word32) (s : State) : (acceptWord w s).packet = s.packet := rfl
@[simp] theorem acceptWord_pending (w : Word32) (s : State) : (acceptWord w s).pending = s.pending := rfl
@[simp] theorem acceptWord_readData (w : Word32) (s : State) : (acceptWord w s).readData = s.readData := rfl
@[simp] theorem acceptWord_source (w : Word32) (s : State) : (acceptWord w s).source = s.source := rfl
@[simp] theorem acceptWord_resets (w : Word32) (s : State) : (acceptWord w s).resets = s.resets := rfl
@[simp] theorem acceptWord_clears (w : Word32) (s : State) : (acceptWord w s).clears = s.clears := rfl
@[simp] theorem acceptWord_marked (w : Word32) (s : State) : (acceptWord w s).marked = s.marked := rfl

@[simp] theorem withoutOutputs_data (kind : BitVec 2) (s : State) : (withoutOutputs kind s).data = s.data := rfl
@[simp] theorem withoutOutputs_tlen (kind : BitVec 2) (s : State) : (withoutOutputs kind s).tlen = s.tlen := rfl
@[simp] theorem withoutOutputs_cmd (kind : BitVec 2) (s : State) : (withoutOutputs kind s).cmd = s.cmd := rfl
@[simp] theorem withoutOutputs_status (kind : BitVec 2) (s : State) : (withoutOutputs kind s).status = putKind kind s.status := rfl
@[simp] theorem withoutOutputs_result (kind : BitVec 2) (s : State) : (withoutOutputs kind s).result = none := rfl
@[simp] theorem withoutOutputs_lane (kind : BitVec 2) (s : State) : (withoutOutputs kind s).lane = Vector.replicate 4 none := rfl
@[simp] theorem withoutOutputs_packet (kind : BitVec 2) (s : State) : (withoutOutputs kind s).packet = Vector.replicate 32 none := rfl
@[simp] theorem withoutOutputs_pending (kind : BitVec 2) (s : State) : (withoutOutputs kind s).pending = s.pending := rfl
@[simp] theorem withoutOutputs_readData (kind : BitVec 2) (s : State) : (withoutOutputs kind s).readData = s.readData := rfl
@[simp] theorem withoutOutputs_source (kind : BitVec 2) (s : State) : (withoutOutputs kind s).source = s.source := rfl
@[simp] theorem withoutOutputs_resets (kind : BitVec 2) (s : State) : (withoutOutputs kind s).resets = s.resets := rfl
@[simp] theorem withoutOutputs_clears (kind : BitVec 2) (s : State) : (withoutOutputs kind s).clears = s.clears + 1 := rfl
@[simp] theorem withoutOutputs_marked (kind : BitVec 2) (s : State) : (withoutOutputs kind s).marked = s.marked := rfl

@[simp] theorem commitWord_data (v : Word64) (s : State) : (commitWord v s).data = s.data := rfl
@[simp] theorem commitWord_tlen (v : Word64) (s : State) : (commitWord v s).tlen = s.tlen := rfl
@[simp] theorem commitWord_cmd (v : Word64) (s : State) : (commitWord v s).cmd = s.cmd := rfl
@[simp] theorem commitWord_status (v : Word64) (s : State) : (commitWord v s).status = putKind kindWord s.status := rfl
@[simp] theorem commitWord_result (v : Word64) (s : State) : (commitWord v s).result = some v := rfl
@[simp] theorem commitWord_lane (v : Word64) (s : State) : (commitWord v s).lane = Vector.replicate 4 none := rfl
@[simp] theorem commitWord_packet (v : Word64) (s : State) : (commitWord v s).packet = Vector.replicate 32 none := rfl
@[simp] theorem commitWord_pending (v : Word64) (s : State) : (commitWord v s).pending = s.pending := rfl
@[simp] theorem commitWord_readData (v : Word64) (s : State) : (commitWord v s).readData = s.readData := rfl
@[simp] theorem commitWord_source (v : Word64) (s : State) : (commitWord v s).source = s.source := rfl
@[simp] theorem commitWord_resets (v : Word64) (s : State) : (commitWord v s).resets = s.resets := rfl
@[simp] theorem commitWord_clears (v : Word64) (s : State) : (commitWord v s).clears = s.clears + 1 := rfl
@[simp] theorem commitWord_marked (v : Word64) (s : State) : (commitWord v s).marked = s.marked := rfl

@[simp] theorem commitPacket_data (p : Vector Byte 32) (s : State) : (commitPacket p s).data = s.data := rfl
@[simp] theorem commitPacket_tlen (p : Vector Byte 32) (s : State) : (commitPacket p s).tlen = s.tlen := rfl
@[simp] theorem commitPacket_cmd (p : Vector Byte 32) (s : State) : (commitPacket p s).cmd = s.cmd := rfl
@[simp] theorem commitPacket_status (p : Vector Byte 32) (s : State) : (commitPacket p s).status = putKind kindPacket s.status := rfl
@[simp] theorem commitPacket_result (p : Vector Byte 32) (s : State) : (commitPacket p s).result = none := rfl
@[simp] theorem commitPacket_lane (p : Vector Byte 32) (s : State) : (commitPacket p s).lane = Vector.ofFn fun k => some (laneOf p k) := rfl
@[simp] theorem commitPacket_packet (p : Vector Byte 32) (s : State) : (commitPacket p s).packet = Vector.ofFn fun i => some p[i] := rfl
@[simp] theorem commitPacket_pending (p : Vector Byte 32) (s : State) : (commitPacket p s).pending = s.pending := rfl
@[simp] theorem commitPacket_readData (p : Vector Byte 32) (s : State) : (commitPacket p s).readData = s.readData := rfl
@[simp] theorem commitPacket_source (p : Vector Byte 32) (s : State) : (commitPacket p s).source = s.source := rfl
@[simp] theorem commitPacket_resets (p : Vector Byte 32) (s : State) : (commitPacket p s).resets = s.resets := rfl
@[simp] theorem commitPacket_clears (p : Vector Byte 32) (s : State) : (commitPacket p s).clears = s.clears + 1 := rfl
@[simp] theorem commitPacket_marked (p : Vector Byte 32) (s : State) : (commitPacket p s).marked = s.marked := rfl

@[simp] theorem takeFault_data (c : FaultCause) (s : State) : (takeFault c s).data = s.data := rfl
@[simp] theorem takeFault_tlen (c : FaultCause) (s : State) : (takeFault c s).tlen = s.tlen := rfl
@[simp] theorem takeFault_cmd (c : FaultCause) (s : State) : (takeFault c s).cmd = s.cmd := rfl
@[simp] theorem takeFault_status (c : FaultCause) (s : State) : (takeFault c s).status = putKind kindNone (putCause (causeCode c) (putFault 1 s.status)) := rfl
@[simp] theorem takeFault_result (c : FaultCause) (s : State) : (takeFault c s).result = none := rfl
@[simp] theorem takeFault_lane (c : FaultCause) (s : State) : (takeFault c s).lane = Vector.replicate 4 none := rfl
@[simp] theorem takeFault_packet (c : FaultCause) (s : State) : (takeFault c s).packet = Vector.replicate 32 none := rfl
@[simp] theorem takeFault_pending (c : FaultCause) (s : State) : (takeFault c s).pending = s.pending := rfl
@[simp] theorem takeFault_readData (c : FaultCause) (s : State) : (takeFault c s).readData = s.readData := rfl
@[simp] theorem takeFault_source (c : FaultCause) (s : State) : (takeFault c s).source = s.source := rfl
@[simp] theorem takeFault_resets (c : FaultCause) (s : State) : (takeFault c s).resets = s.resets := rfl
@[simp] theorem takeFault_clears (c : FaultCause) (s : State) : (takeFault c s).clears = s.clears + 1 := rfl
@[simp] theorem takeFault_marked (c : FaultCause) (s : State) : (takeFault c s).marked = s.marked := rfl

@[simp] theorem resetRegisters_data (s : State) : (resetRegisters s).data = Vector.replicate 32 none := rfl
@[simp] theorem resetRegisters_tlen (s : State) : (resetRegisters s).tlen = none := rfl
@[simp] theorem resetRegisters_cmd (s : State) : (resetRegisters s).cmd = 0 := rfl
@[simp] theorem resetRegisters_status (s : State) : (resetRegisters s).status = 0 := rfl
@[simp] theorem resetRegisters_result (s : State) : (resetRegisters s).result = none := rfl
@[simp] theorem resetRegisters_lane (s : State) : (resetRegisters s).lane = Vector.replicate 4 none := rfl
@[simp] theorem resetRegisters_packet (s : State) : (resetRegisters s).packet = Vector.replicate 32 none := rfl
@[simp] theorem resetRegisters_pending (s : State) : (resetRegisters s).pending = s.pending := rfl
@[simp] theorem resetRegisters_readData (s : State) : (resetRegisters s).readData = s.readData := rfl
@[simp] theorem resetRegisters_source (s : State) : (resetRegisters s).source = s.source := rfl
@[simp] theorem resetRegisters_resets (s : State) : (resetRegisters s).resets = s.resets + 1 := rfl
@[simp] theorem resetRegisters_clears (s : State) : (resetRegisters s).clears = s.clears + 1 := rfl
@[simp] theorem resetRegisters_marked (s : State) : (resetRegisters s).marked = s.marked := rfl

@[simp] theorem issueFirst_data (a : HostAccess) (s : State) : (issueFirst a s).data = s.data := rfl
@[simp] theorem issueFirst_tlen (a : HostAccess) (s : State) : (issueFirst a s).tlen = s.tlen := rfl
@[simp] theorem issueFirst_cmd (a : HostAccess) (s : State) : (issueFirst a s).cmd = s.cmd := rfl
@[simp] theorem issueFirst_status (a : HostAccess) (s : State) : (issueFirst a s).status = s.status := rfl
@[simp] theorem issueFirst_result (a : HostAccess) (s : State) : (issueFirst a s).result = s.result := rfl
@[simp] theorem issueFirst_lane (a : HostAccess) (s : State) : (issueFirst a s).lane = s.lane := rfl
@[simp] theorem issueFirst_packet (a : HostAccess) (s : State) : (issueFirst a s).packet = s.packet := rfl
@[simp] theorem issueFirst_pending (a : HostAccess) (s : State) : (issueFirst a s).pending = a :: s.pending := rfl
@[simp] theorem issueFirst_readData (a : HostAccess) (s : State) : (issueFirst a s).readData = s.readData := rfl
@[simp] theorem issueFirst_source (a : HostAccess) (s : State) : (issueFirst a s).source = s.source := rfl
@[simp] theorem issueFirst_resets (a : HostAccess) (s : State) : (issueFirst a s).resets = s.resets := rfl
@[simp] theorem issueFirst_clears (a : HostAccess) (s : State) : (issueFirst a s).clears = s.clears := rfl
@[simp] theorem issueFirst_marked (a : HostAccess) (s : State) : (issueFirst a s).marked = s.marked := rfl

end Sys2Proof.Machine
end

