-- ==== Sys2Proof/Laws/Status.lean ====
section
/-! SUPPORT. Reading a field of `STATUS` after writing one: the same field gives the value written, any other field and
the reserved bits give what they gave before. -/

namespace Sys2Proof.Machine

theorem extract_putField_same (lo : Nat) {len : Nat} (v : BitVec len) (w : Word32) (h : lo + len ≤ 32) :
    (putField lo v w).extractLsb' lo len = v := by
  ext i hi
  have : lo + i < 32 := by omega
  simp [putField, hi, this]

theorem extract_putField_other (lo : Nat) {len : Nat} (v : BitVec len) (w : Word32) (lo' len' : Nat)
    (h : lo' + len' ≤ lo ∨ lo + len ≤ lo') :
    (putField lo v w).extractLsb' lo' len' = w.extractLsb' lo' len' := by
  ext i hi
  rcases Nat.lt_or_ge (lo' + i) 32 with h32 | h32
  · rcases h with h | h
    · have : lo' + i < lo := by omega
      simp [putField, this, h32]
    · have h1 : ¬ lo' + i < lo := by omega
      have h2 : ¬ lo' + i - lo < len := by omega
      have h3 : v.getLsbD (lo' + i - lo) = false := BitVec.getLsbD_of_ge _ _ (by omega)
      simp [putField, h1, h2, h3, h32]
  · simp [putField, BitVec.getLsbD_of_ge, h32]

@[simp] theorem statusKind_putKind (v : BitVec 2) (st : Word32) : statusKind (putKind v st) = v :=
  extract_putField_same 0 v st (by omega)
@[simp] theorem statusFault_putKind (v : BitVec 2) (st : Word32) : statusFault (putKind v st) = statusFault st :=
  extract_putField_other 0 v st 2 1 (by omega)
@[simp] theorem statusCause_putKind (v : BitVec 2) (st : Word32) : statusCause (putKind v st) = statusCause st :=
  extract_putField_other 0 v st 4 4 (by omega)
@[simp] theorem statusLastOp_putKind (v : BitVec 2) (st : Word32) : statusLastOp (putKind v st) = statusLastOp st :=
  extract_putField_other 0 v st 8 3 (by omega)
@[simp] theorem statusLastLen_putKind (v : BitVec 2) (st : Word32) : statusLastLen (putKind v st) = statusLastLen st :=
  extract_putField_other 0 v st 11 5 (by omega)
@[simp] theorem reservedBit_putKind (v : BitVec 2) (st : Word32) :
    (putKind v st).extractLsb' 3 1 = st.extractLsb' 3 1 :=
  extract_putField_other 0 v st 3 1 (by omega)
@[simp] theorem reservedHigh_putKind (v : BitVec 2) (st : Word32) :
    (putKind v st).extractLsb' 16 16 = st.extractLsb' 16 16 :=
  extract_putField_other 0 v st 16 16 (by omega)

@[simp] theorem statusKind_putFault (v : BitVec 1) (st : Word32) : statusKind (putFault v st) = statusKind st :=
  extract_putField_other 2 v st 0 2 (by omega)
@[simp] theorem statusFault_putFault (v : BitVec 1) (st : Word32) : statusFault (putFault v st) = v :=
  extract_putField_same 2 v st (by omega)
@[simp] theorem statusCause_putFault (v : BitVec 1) (st : Word32) : statusCause (putFault v st) = statusCause st :=
  extract_putField_other 2 v st 4 4 (by omega)
@[simp] theorem statusLastOp_putFault (v : BitVec 1) (st : Word32) : statusLastOp (putFault v st) = statusLastOp st :=
  extract_putField_other 2 v st 8 3 (by omega)
@[simp] theorem statusLastLen_putFault (v : BitVec 1) (st : Word32) : statusLastLen (putFault v st) = statusLastLen st :=
  extract_putField_other 2 v st 11 5 (by omega)
@[simp] theorem reservedBit_putFault (v : BitVec 1) (st : Word32) :
    (putFault v st).extractLsb' 3 1 = st.extractLsb' 3 1 :=
  extract_putField_other 2 v st 3 1 (by omega)
@[simp] theorem reservedHigh_putFault (v : BitVec 1) (st : Word32) :
    (putFault v st).extractLsb' 16 16 = st.extractLsb' 16 16 :=
  extract_putField_other 2 v st 16 16 (by omega)

@[simp] theorem statusKind_putCause (v : BitVec 4) (st : Word32) : statusKind (putCause v st) = statusKind st :=
  extract_putField_other 4 v st 0 2 (by omega)
@[simp] theorem statusFault_putCause (v : BitVec 4) (st : Word32) : statusFault (putCause v st) = statusFault st :=
  extract_putField_other 4 v st 2 1 (by omega)
@[simp] theorem statusCause_putCause (v : BitVec 4) (st : Word32) : statusCause (putCause v st) = v :=
  extract_putField_same 4 v st (by omega)
@[simp] theorem statusLastOp_putCause (v : BitVec 4) (st : Word32) : statusLastOp (putCause v st) = statusLastOp st :=
  extract_putField_other 4 v st 8 3 (by omega)
@[simp] theorem statusLastLen_putCause (v : BitVec 4) (st : Word32) : statusLastLen (putCause v st) = statusLastLen st :=
  extract_putField_other 4 v st 11 5 (by omega)
@[simp] theorem reservedBit_putCause (v : BitVec 4) (st : Word32) :
    (putCause v st).extractLsb' 3 1 = st.extractLsb' 3 1 :=
  extract_putField_other 4 v st 3 1 (by omega)
@[simp] theorem reservedHigh_putCause (v : BitVec 4) (st : Word32) :
    (putCause v st).extractLsb' 16 16 = st.extractLsb' 16 16 :=
  extract_putField_other 4 v st 16 16 (by omega)

@[simp] theorem statusKind_putLastOp (v : BitVec 3) (st : Word32) : statusKind (putLastOp v st) = statusKind st :=
  extract_putField_other 8 v st 0 2 (by omega)
@[simp] theorem statusFault_putLastOp (v : BitVec 3) (st : Word32) : statusFault (putLastOp v st) = statusFault st :=
  extract_putField_other 8 v st 2 1 (by omega)
@[simp] theorem statusCause_putLastOp (v : BitVec 3) (st : Word32) : statusCause (putLastOp v st) = statusCause st :=
  extract_putField_other 8 v st 4 4 (by omega)
@[simp] theorem statusLastOp_putLastOp (v : BitVec 3) (st : Word32) : statusLastOp (putLastOp v st) = v :=
  extract_putField_same 8 v st (by omega)
@[simp] theorem statusLastLen_putLastOp (v : BitVec 3) (st : Word32) : statusLastLen (putLastOp v st) = statusLastLen st :=
  extract_putField_other 8 v st 11 5 (by omega)
@[simp] theorem reservedBit_putLastOp (v : BitVec 3) (st : Word32) :
    (putLastOp v st).extractLsb' 3 1 = st.extractLsb' 3 1 :=
  extract_putField_other 8 v st 3 1 (by omega)
@[simp] theorem reservedHigh_putLastOp (v : BitVec 3) (st : Word32) :
    (putLastOp v st).extractLsb' 16 16 = st.extractLsb' 16 16 :=
  extract_putField_other 8 v st 16 16 (by omega)

@[simp] theorem statusKind_putLastLen (v : BitVec 5) (st : Word32) : statusKind (putLastLen v st) = statusKind st :=
  extract_putField_other 11 v st 0 2 (by omega)
@[simp] theorem statusFault_putLastLen (v : BitVec 5) (st : Word32) : statusFault (putLastLen v st) = statusFault st :=
  extract_putField_other 11 v st 2 1 (by omega)
@[simp] theorem statusCause_putLastLen (v : BitVec 5) (st : Word32) : statusCause (putLastLen v st) = statusCause st :=
  extract_putField_other 11 v st 4 4 (by omega)
@[simp] theorem statusLastOp_putLastLen (v : BitVec 5) (st : Word32) : statusLastOp (putLastLen v st) = statusLastOp st :=
  extract_putField_other 11 v st 8 3 (by omega)
@[simp] theorem statusLastLen_putLastLen (v : BitVec 5) (st : Word32) : statusLastLen (putLastLen v st) = v :=
  extract_putField_same 11 v st (by omega)
@[simp] theorem reservedBit_putLastLen (v : BitVec 5) (st : Word32) :
    (putLastLen v st).extractLsb' 3 1 = st.extractLsb' 3 1 :=
  extract_putField_other 11 v st 3 1 (by omega)
@[simp] theorem reservedHigh_putLastLen (v : BitVec 5) (st : Word32) :
    (putLastLen v st).extractLsb' 16 16 = st.extractLsb' 16 16 :=
  extract_putField_other 11 v st 16 16 (by omega)

/-- `STATUS` is its fields and its reserved bits: two words that agree on all of them are equal. -/
theorem status_ext (a b : Word32) (hk : statusKind a = statusKind b) (hf : statusFault a = statusFault b)
    (h3 : a.extractLsb' 3 1 = b.extractLsb' 3 1) (hc : statusCause a = statusCause b)
    (ho : statusLastOp a = statusLastOp b) (hl : statusLastLen a = statusLastLen b)
    (hr : a.extractLsb' 16 16 = b.extractLsb' 16 16) : a = b := by
  have bit : ∀ (lo len j : Nat), a.extractLsb' lo len = b.extractLsb' lo len → j < len →
      a.getLsbD (lo + j) = b.getLsbD (lo + j) := fun lo len j h hj => by
    simpa [hj] using congrArg (fun v => v.getLsbD j) h
  refine BitVec.eq_of_getLsbD_eq fun i hi => ?_
  rcases Nat.lt_or_ge i 2 with h | h
  · simpa using bit 0 2 i hk h
  rcases Nat.lt_or_ge i 3 with h | h
  · simpa [show 2 + (i - 2) = i by omega] using bit 2 1 (i - 2) hf (by omega)
  rcases Nat.lt_or_ge i 4 with h | h
  · simpa [show 3 + (i - 3) = i by omega] using bit 3 1 (i - 3) h3 (by omega)
  rcases Nat.lt_or_ge i 8 with h | h
  · simpa [show 4 + (i - 4) = i by omega] using bit 4 4 (i - 4) hc (by omega)
  rcases Nat.lt_or_ge i 11 with h | h
  · simpa [show 8 + (i - 8) = i by omega] using bit 8 3 (i - 8) ho (by omega)
  rcases Nat.lt_or_ge i 16 with h | h
  · simpa [show 11 + (i - 11) = i by omega] using bit 11 5 (i - 11) hl (by omega)
  · simpa [show 16 + (i - 16) = i by omega] using bit 16 16 (i - 16) hr (by omega)

end Sys2Proof.Machine
end

