-- ==== Sys2Proof/Laws/Ops.lean ====
section
/-! SUPPORT. One lemma per shared operation that says once everything it can do: reading the input bytes, marking a
use of a register that holds `⊥`, and the fields a word's acceptance writes. -/

namespace Sys2Proof.Machine

theorem dataByte_of_lt {j : Nat} (h : j < 32) (s : State) : dataByte j s = s.data[j] := by simp [dataByte, h]

@[simp] theorem byteAt_nil (j : Nat) : byteAt [] j = 0 := by simp [byteAt]

@[simp] theorem byteAt_cons_zero (b : Byte) (bytes : List Byte) : byteAt (b :: bytes) 0 = b := by simp [byteAt]

@[simp] theorem byteAt_cons_succ (b : Byte) (bytes : List Byte) (j : Nat) :
    byteAt (b :: bytes) (j + 1) = byteAt bytes j := by simp [byteAt]

theorem byteAt_append_left {bytes more : List Byte} {j : Nat} (h : j < bytes.length) :
    byteAt (bytes ++ more) j = byteAt bytes j := by simp [byteAt, List.getElem?_append, h]

theorem byteAt_append_self (bytes : List Byte) (b : Byte) : byteAt (bytes ++ [b]) bytes.length = b := by
  simp [byteAt]

/-- The input bytes are `n`, and byte `j` of them is the bits of `DATA[j]`. -/
@[simp] theorem readInput_length (n : Nat) (s : State) : (readInput n s).length = n := by simp [readInput]

theorem byteAt_readInput {n j : Nat} (h : j < n) (s : State) : byteAt (readInput n s) j = dataBits j s := by
  simp [byteAt, readInput, h]

theorem dataBits_of_some {j : Nat} {s : State} {b : Byte} (h : dataByte j s = some b) : dataBits j s = b := by
  simp [dataBits, h]

theorem tlenBits_of_some {s : State} {T : Word64} (h : s.tlen = some T) : tlenBits s = T := by simp [tlenBits, h]

/-- The input bytes all hold a value: none of `DATA[0..n-1]` is `⊥`. -/
theorem inputHeld_iff {n : Nat} {s : State} : inputHeld n s = true ↔ ∀ j, j < n → dataByte j s ≠ none := by
  simp [inputHeld, Option.isSome_iff_ne_none]

theorem dataBits_congr {j : Nat} {s s' : State} (h : dataByte j s = dataByte j s') (hs : s.source = s'.source)
    (hr : s.resets = s'.resets) : dataBits j s = dataBits j s' := by simp [dataBits, h, hs, hr]

/-- `readInput` depends on nothing but the bits it reads. -/
theorem readInput_congr {n : Nat} {s s' : State} (h : ∀ j, j < n → dataBits j s = dataBits j s') :
    readInput n s = readInput n s' :=
  List.map_congr_left fun j hj => h j (List.mem_range.1 hj)

theorem inputHeld_congr {n : Nat} {s s' : State} (h : ∀ j, j < n → dataByte j s = dataByte j s') :
    inputHeld n s = inputHeld n s' := by
  rw [Bool.eq_iff_iff, inputHeld_iff, inputHeld_iff]
  exact forall_congr' fun j => imp_congr_right fun hj => by rw [h j hj]

/-- A use of registers that all hold a value leaves the state as it is. -/
@[simp] theorem noteUse_true (s : State) : noteUse true s = s := by simp [noteUse]

theorem noteUse_noteUse (a b : Bool) (s : State) : noteUse a (noteUse b s) = noteUse (a && b) s := by
  simp only [noteUse]
  congr 1
  cases s.marked <;> cases a <;> cases b <;> rfl

/-- In the fault state or not: `FAULT` is one bit. -/
theorem inFaultState_iff (s : State) : inFaultState s = true ↔ statusFault s.status = 1 := by
  simp [inFaultState]

theorem statusFault_cases (st : Word32) : statusFault st = 0 ∨ statusFault st = 1 := by
  have : ∀ v : BitVec 1, v = 0 ∨ v = 1 := by decide
  exact this _

theorem acceptWord_lastOp (w : Word32) (s : State) : statusLastOp (acceptWord w s).status = opField w := by simp

theorem acceptWord_lastLen (w : Word32) (s : State) : statusLastLen (acceptWord w s).status = lenField w := by simp

end Sys2Proof.Machine
end

