-- ==== Sys2Proof/Laws/Exec.lean ====
section
/-! SUPPORT. What a command, an access and a step can do, said once: the provers cite these and do not unfold. -/

namespace Sys2Proof.Machine

theorem execFhTail_eq_next {n : Nat} {s t : State} :
    execFhTail n s = .next t ↔
      (7 < n ∧ t = takeFault .lengthBound s) ∨
      (n ≤ 7 ∧ t = commitWord (fastHashWord (readInput n s)) (noteInput n s)) := by
  simp only [execFhTail, Config.fhMaxLen, Host.Outcome.next.injEq]
  rcases Nat.lt_or_ge 7 n with h | h
  · simp [h, Nat.not_le.2 h, eq_comm]
  · simp [h, Nat.not_lt.2 h, eq_comm]

theorem execMirTail_eq_next {n : Nat} {s t : State} :
    execMirTail n s = .next t ↔
      (7 < n ∧ t = takeFault .lengthBound s) ∨
      (n ≤ 7 ∧ t = commitWord (mirHashWord (readInput n s)) (noteInput n s)) := by
  simp only [execMirTail, Config.mirMaxLen, Host.Outcome.next.injEq]
  rcases Nat.lt_or_ge 7 n with h | h
  · simp [h, Nat.not_le.2 h, eq_comm]
  · simp [h, Nat.not_lt.2 h, eq_comm]

theorem execMumTail_eq_next {n : Nat} {s t : State} :
    execMumTail n s = .next t ↔
      (7 < n ∧ t = takeFault .lengthBound s) ∨ (n < 7 ∧ t = takeFault .lengthUnsupported s) ∨
      (n = 7 ∧ t = commitWord (mumHashWord (readInput n s)) (noteInput n s)) := by
  simp only [execMumTail, Config.mumLen, Host.Outcome.next.injEq]
  rcases Nat.lt_trichotomy n 7 with h | h | h
  · simp [h, show ¬ 7 < n by omega, show n ≠ 7 by omega, eq_comm]
  · simp [h, eq_comm]
  · simp [h, show ¬ n < 7 by omega, show n ≠ 7 by omega, eq_comm]

theorem execHhPacket_eq_next {n : Nat} {s t : State} :
    execHhPacket n s = .next t ↔
      (n ≠ remainderOf (tlenBits s) ∧ t = takeFault .lengthMismatch (noteUse s.tlen.isSome s)) ∨
      (n = remainderOf (tlenBits s) ∧
        t = commitPacket (buildPacket n (readInput n s)) (noteUse s.tlen.isSome (noteInput n s))) := by
  simp only [execHhPacket, Host.Outcome.next.injEq]
  by_cases h : n = remainderOf (tlenBits s)
  · simp [← h, eq_comm]
  · simp [h, eq_comm]

/-- Every command answers a next state. -/
theorem exec_next (i : Instr) (s : State) : ∃ t, exec i s = .next t := by
  cases i <;> exact ⟨_, rfl⟩

/-- A command either takes a fault of its own length contract, or commits a word, or commits a packet; beside that it at
most marks the state. -/
theorem exec_next_cases {i : Instr} {s t : State} (h : exec i s = .next t) :
    (∃ c held, t = takeFault c (noteUse held s)) ∨ (∃ v held, t = commitWord v (noteUse held s)) ∨
      ∃ p held, t = commitPacket p (noteUse held s) := by
  cases i with
  | fhTail n =>
    rcases execFhTail_eq_next.1 h with ⟨-, rfl⟩ | ⟨-, rfl⟩
    · exact .inl ⟨_, true, by rw [noteUse_true]⟩
    · exact .inr (.inl ⟨_, _, rfl⟩)
  | hhPacket n =>
    rcases execHhPacket_eq_next.1 h with ⟨-, rfl⟩ | ⟨-, rfl⟩
    · exact .inl ⟨_, _, rfl⟩
    · exact .inr (.inr ⟨_, _, by rw [noteInput, noteUse_noteUse]⟩)
  | mirTail n =>
    rcases execMirTail_eq_next.1 h with ⟨-, rfl⟩ | ⟨-, rfl⟩
    · exact .inl ⟨_, true, by rw [noteUse_true]⟩
    · exact .inr (.inl ⟨_, _, rfl⟩)
  | mumTail n =>
    rcases execMumTail_eq_next.1 h with ⟨-, rfl⟩ | ⟨-, rfl⟩ | ⟨-, rfl⟩
    · exact .inl ⟨_, true, by rw [noteUse_true]⟩
    · exact .inl ⟨_, true, by rw [noteUse_true]⟩
    · exact .inr (.inl ⟨_, _, rfl⟩)

/-- A `CMD` write is ignored in the fault state, else accepts its word and takes a decoding fault or executes. -/
theorem issueCommand_next_cases {w : Word32} {s t : State} (h : issueCommand w s = .next t) :
    (statusFault s.status = 1 ∧ t = s) ∨
    (statusFault s.status = 0 ∧
      ((∃ e, decode w = .error e ∧ t = takeFault (decodeCause e) (acceptWord w s)) ∨
       ∃ i, decode w = .ok i ∧ exec i (acceptWord w s) = .next t)) := by
  unfold issueCommand at h
  split at h
  · next hf =>
    cases h
    exact .inl ⟨(inFaultState_iff _).1 hf, rfl⟩
  · next hf =>
    have hf0 : statusFault s.status = 0 :=
      (statusFault_cases _).resolve_right fun h1 => hf ((inFaultState_iff _).2 h1)
    refine .inr ⟨hf0, ?_⟩
    split at h
    · next e he =>
      cases h
      exact .inl ⟨e, he, rfl⟩
    · next i hi => exact .inr ⟨i, hi, h⟩

/-- What one host access can do when the model gives it a step. -/
theorem performAccess_next_cases {a : HostAccess} {s t : State} (h : performAccess a s = .next t) :
    (∃ sel r, a = .read sel ∧ regOf sel = some r ∧
      t = noteUse (holdsValue r s) { s with readData := some (readReg r s) }) ∨
    (∃ sel v i, a = .write sel v ∧ regOf sel = some (.data i) ∧
      t = { s with data := s.data.set i (some (BitVec.ofNat 8 v)) }) ∨
    (∃ sel v, a = .write sel v ∧ regOf sel = some .tlen ∧ t = { s with tlen := some (BitVec.ofNat 64 v) }) ∨
    (∃ sel v, a = .write sel v ∧ regOf sel = some .cmd ∧ issueCommand (BitVec.ofNat 32 v) s = .next t) ∨
    (a = .reset ∧ t = resetRegisters s) := by
  cases a with
  | read sel =>
    simp only [performAccess, hostRead] at h
    split at h
    · cases h
    · next r hr =>
      cases h
      exact .inl ⟨_, r, rfl, hr, rfl⟩
  | write sel v =>
    simp only [performAccess, hostWrite] at h
    split at h
    · cases h
    · next r hr =>
      split at h
      · cases h
      · cases r with
        | data i =>
          cases h
          exact .inr (.inl ⟨_, _, i, rfl, hr, rfl⟩)
        | tlen =>
          cases h
          exact .inr (.inr (.inl ⟨_, _, rfl, hr, rfl⟩))
        | cmd => exact .inr (.inr (.inr (.inl ⟨_, _, rfl, hr, h⟩)))
        | status => cases h
        | result => cases h
        | lane k => cases h
        | packet i => cases h
  | reset =>
    cases h
    exact .inr (.inr (.inr (.inr ⟨rfl, rfl⟩)))

/-- The outcome with `f` applied to its next state. -/
def onNext (f : State → State) (o : Host.Outcome State Fault Refusal) : Host.Outcome State Fault Refusal :=
  match o with
  | .next t => .next (f t)
  | .fault r => .fault r
  | .refused r => .refused r

/-- A command neither reads nor changes the accesses still to come. -/
theorem exec_pending (i : Instr) (s : State) (later : List HostAccess) :
    exec i { s with pending := later } = onNext (fun t => { t with pending := later }) (exec i s) := by
  cases i with
  | fhTail n =>
    simp only [exec, execFhTail, onNext]
    split <;> rfl
  | hhPacket n =>
    simp only [exec, execHhPacket, onNext, show tlenBits { s with pending := later } = tlenBits s from rfl]
    split <;> rfl
  | mirTail n =>
    simp only [exec, execMirTail, onNext]
    split <;> rfl
  | mumTail n =>
    simp only [exec, execMumTail, onNext]
    split
    · rfl
    · split <;> rfl

/-- A host access neither reads nor changes the accesses still to come. -/
theorem performAccess_pending (a : HostAccess) (s : State) (later : List HostAccess) :
    performAccess a { s with pending := later } = onNext (fun t => { t with pending := later }) (performAccess a s) := by
  cases a with
  | reset => rfl
  | read sel =>
    have hread : ∀ r, readReg r { s with pending := later } = readReg r s := fun r => by cases r <;> rfl
    have hheld : ∀ r, holdsValue r { s with pending := later } = holdsValue r s := fun r => by cases r <;> rfl
    simp only [performAccess, hostRead, hread, hheld]
    cases regOf sel with
    | none => rfl
    | some r => rfl
  | write sel v =>
    simp only [performAccess, hostWrite]
    cases regOf sel with
    | none => rfl
    | some r =>
      simp only
      split
      · rfl
      · cases r <;> try rfl
        simp only [writeReg, issueCommand]
        change (if inFaultState s = true then _ else _) = _
        split
        · rfl
        · cases decode (BitVec.ofNat 32 v) with
          | error e => rfl
          | ok i => exact exec_pending i (acceptWord _ s) later

theorem step_nil {s : State} (h : s.pending = []) : step s = .next s := by simp [step, nextAccess, h]

theorem step_cons {s : State} {a : HostAccess} {rest : List HostAccess} (h : s.pending = a :: rest) :
    step s = performAccess a { s with pending := rest } := by simp [step, nextAccess, h]

/-- A step idles, or the first access takes effect on the state with it taken off the list. -/
theorem step_next_cases {s t : State} (h : step s = .next t) :
    (s.pending = [] ∧ t = s) ∨
    ∃ a rest, s.pending = a :: rest ∧ performAccess a { s with pending := rest } = .next t := by
  cases hp : s.pending with
  | nil =>
    rw [step_nil hp] at h
    cases h
    exact .inl ⟨rfl, rfl⟩
  | cons a rest =>
    rw [step_cons hp] at h
    exact .inr ⟨a, rest, rfl, h⟩

/-- The refusing step is the step, where that leaves the state unmarked. -/
theorem refusingStep_eq_some {s t : State} : refusingStep s = some t ↔ step s = .next t ∧ t.marked = false := by
  unfold refusingStep
  cases step s with
  | next u =>
    simp only [Host.Outcome.next.injEq, Option.ite_none_left_eq_some, Bool.not_eq_true, Option.some.injEq]
    exact ⟨fun ⟨hu, h⟩ => ⟨h, h ▸ hu⟩, fun ⟨h, hu⟩ => ⟨h ▸ hu, h⟩⟩
  | fault f => simp
  | refused r => simp

end Sys2Proof.Machine
end

