-- ==== Sys2Proof/Laws/Packet.lean ====
section
/-! SUPPORT. The packet position by position: what each writing step of 41_highwayhash.md R76 leaves at index `j`. -/

namespace Sys2Proof.Machine

@[simp] theorem zeroPacket_getElem (j : Nat) (h : j < 32) : zeroPacket[j] = 0 := by simp [zeroPacket]

theorem copyBytes_getElem (count dst src : Nat) (bytes : List Byte) (p : Vector Byte 32) (j : Nat) (h : j < 32) :
    (copyBytes count dst src bytes p)[j] =
      if dst ≤ j ∧ j < dst + count then byteAt bytes (src + (j - dst)) else p[j] := by
  induction count with
  | zero =>
    rw [if_neg (by omega)]
    rfl
  | succ k ih =>
    simp only [copyBytes, Vector.getElem_setIfInBounds, ih]
    split
    · next e =>
      subst e
      simp
    · next e =>
      by_cases hj : dst ≤ j ∧ j < dst + k
      · rw [if_pos hj, if_pos (by omega)]
      · rw [if_neg hj, if_neg (by omega)]

theorem scatterBytes_getElem (off mod4 : Nat) (bytes : List Byte) (p : Vector Byte 32) (j : Nat) (h : j < 32) :
    (scatterBytes off mod4 bytes p)[j] =
      if 18 = j then byteAt bytes (off + mod4 - 1)
      else if 17 = j then byteAt bytes (off + mod4 / 2)
      else if 16 = j then byteAt bytes off
      else p[j] := by
  simp only [scatterBytes, Vector.getElem_setIfInBounds]

/-- The three cases of R86, each a sequence of the steps. -/
theorem buildPacket_cases (remainder : Nat) (bytes : List Byte) :
    let p := copyBytes (diff4Of remainder) 0 0 bytes zeroPacket
    (remainder &&& 16 ≠ 0 ∧
      buildPacket remainder bytes = copyBytes 4 28 (diff4Of remainder + mod4Of remainder - 4) bytes p) ∨
    (remainder &&& 16 = 0 ∧ mod4Of remainder ≠ 0 ∧
      buildPacket remainder bytes = scatterBytes (diff4Of remainder) (mod4Of remainder) bytes p) ∨
    (remainder &&& 16 = 0 ∧ mod4Of remainder = 0 ∧ buildPacket remainder bytes = p) := by
  intro p
  by_cases h : remainder &&& 16 = 0
  · by_cases h' : mod4Of remainder = 0
    · exact .inr (.inr ⟨h, h', by simp [buildPacket, h, h', p]⟩)
    · exact .inr (.inl ⟨h, h', by simp [buildPacket, h, h', p]⟩)
  · exact .inl ⟨h, by simp [buildPacket, h, p]⟩

end Sys2Proof.Machine
end

