-- ==== Sys2Proof/Laws/PerInstr.lean ====
section
/-! SUPPORT. Facts about every command as syntax, one lemma per constructor. -/

namespace Sys2Proof.Laws.EncodeFields

/-- The encoding's fields are the command's: `OP` is its opcode, `LEN` its byte count modulo 32, `RSV` is zero
(30_encoding.md R57, R60). -/
def Statement (i : Instr) : Prop :=
  opField (encode i) = opcodeOf i ∧ lenField (encode i) = BitVec.ofNat 5 i.len ∧ rsvField (encode i) = 0

theorem fhTail (n : Nat) : Statement (.fhTail n) := fields_append _ _

theorem hhPacket (n : Nat) : Statement (.hhPacket n) := fields_append _ _

theorem mirTail (n : Nat) : Statement (.mirTail n) := fields_append _ _

theorem mumTail (n : Nat) : Statement (.mumTail n) := fields_append _ _

end Sys2Proof.Laws.EncodeFields
end

