-- ==== Sys2Proof/Tests/Slice0.lean ====
section
/-! SUPPORT. The model's own tests. Every expected value is the spec's (30_encoding.md R68, 95_test_vectors.md, the rules'
corner cases), not the model's. The last part gives, for every statement with hypotheses, a state and operands that meet
them. -/

namespace Sys2Proof.Tests

open Sys2Proof Sys2Proof.Machine Sys2Proof.Spec

/-! ### Helpers -/

/-- After reset with `DATA[0..]` written with the bytes and `TLEN` as given. -/
def loaded (bytes : List Byte) (tlen : Option Word64) : State :=
  { State.reset with data := Vector.ofFn fun i => bytes[i.val]?, tlen := tlen }

/-- The state with the host accesses issued. -/
def issued (as : List HostAccess) (s : State) : State := { s with pending := as }

/-- The next state of an outcome. -/
def nextOf (o : Host.Outcome State Fault Refusal) : Option State :=
  match o with
  | .next s => some s
  | .fault _ => none
  | .refused _ => none

/-- The refusal of an outcome. -/
def refusalOf (o : Host.Outcome State Fault Refusal) : Option Refusal :=
  match o with
  | .next _ => none
  | .fault _ => none
  | .refused r => some r

/-- The state one step after the command word is placed. -/
def afterWord (w : Nat) (s : State) : Option State := nextOf (step (s.withFetchWord 32 w))

/-- `CMD`, `STATUS` and `RESULT` one step after the command word is placed. -/
def seen (w : Nat) (s : State) : Option (Word32 × Word32 × Option Word64) :=
  (afterWord w s).map fun t => (t.cmd, t.status, t.result)

/-- `STATUS` and the lanes one step after the command word is placed. -/
def seenLanes (w : Nat) (s : State) : Option (Word32 × Option Word64 × Option Word64 × Option Word64 × Option Word64) :=
  (afterWord w s).map fun t => (t.status, t.lane[0], t.lane[1], t.lane[2], t.lane[3])

/-- `DATA[0..] = 01 … 07, 00 …` and no `TLEN`: the start of 95_test_vectors.md 2.6. -/
def start : State := loaded ([1, 2, 3, 4, 5, 6, 7] ++ List.replicate 25 0) none

/-- `DATA[i] = A0 + i`, the start of 95_test_vectors.md 2.5. -/
def rampA0 : List Byte := (List.range 32).map fun i => BitVec.ofNat 8 (0xA0 + i)

/-! ### Well-formedness: the check refuses a byte count that no encoding holds (R66) -/

theorem test_wellFormed_refuses_fhTail_32 : ¬ WellFormed (.fhTail 32) := by decide
theorem test_wellFormed_refuses_hhPacket_32 : ¬ WellFormed (.hhPacket 32) := by decide
theorem test_wellFormed_refuses_mirTail_32 : ¬ WellFormed (.mirTail 32) := by decide
theorem test_wellFormed_refuses_mumTail_32 : ¬ WellFormed (.mumTail 32) := by decide
theorem test_wellFormed_accepts_31 : WellFormed (.fhTail 31) ∧ WellFormed (.mumTail 31) := by decide

/-! ### Decoding: words written out from the format of R57, bit 31 first -/

theorem test_decode_fhTail_7 : decode 0b000000000000000000000000_00111_000 = .ok (.fhTail 7) := by decide
theorem test_decode_hhPacket_19 : decode 0b000000000000000000000000_10011_001 = .ok (.hhPacket 19) := by decide
theorem test_decode_mirTail_5 : decode 0b000000000000000000000000_00101_010 = .ok (.mirTail 5) := by decide
theorem test_decode_mumTail_7 : decode 0b000000000000000000000000_00111_011 = .ok (.mumTail 7) := by decide
theorem test_decode_op_before_reserved : decode 0x00000104 = .error .illegalOp := by decide
theorem test_decode_reserved_bit_31 : decode 0x80000000 = .error .reservedBits := by decide
theorem test_decode_table_words :
    decodeTableWord 32 0 = some (.fhTail 0) ∧ decodeTableWord 32 1 = some (.hhPacket 0) ∧
    decodeTableWord 32 2 = some (.mirTail 0) ∧ decodeTableWord 32 3 = some (.mumTail 0) := by decide
theorem test_encode_examples :
    encode (.fhTail 7) = 0x38 ∧ encode (.hhPacket 31) = 0xF9 ∧ encode (.mirTail 5) = 0x2A ∧
    encode (.mumTail 7) = 0x3B := by decide

/-! ### The four commands (95_test_vectors.md 2.2–2.5) -/

/-- V-FH-DOC. -/
theorem test_fhTail_doc :
    seen 0x38 (loaded [0xE8, 0x7E, 0x38, 0x5D, 0xAC, 0x11, 0x03] none) =
      some (0x38, 0x3801, some 0x000311AC5D387EE8) := by decide
/-- V-FH-0: no byte is read, so nothing need be written. -/
theorem test_fhTail_empty : seen 0x00 State.reset = some (0x00, 0x0001, some 0) := by decide
/-- V-MIR-DOC. -/
theorem test_mirTail_doc :
    seen 0x2A (loaded [0x57, 0x00, 0x85, 0x35, 0x0C] none) = some (0x2A, 0x2A01, some 0x0C35850057000000) := by decide
/-- V-MIR-2c: the zero folded last is on top. -/
theorem test_mirTail_order : seen 0x12 (loaded [0x41, 0x00] none) = some (0x12, 0x1201, some 0x0041000000000000) := by
  decide
/-- V-MUM-DOC. -/
theorem test_mumTail_doc :
    seen 0x3B (loaded [0x10, 0xCD, 0x21, 0x27, 0x06, 0x8E, 0xC7] none) =
      some (0x3B, 0x3B01, some 0x00C78E062721CD10) := by decide
/-- V-MUM-FF: no carry into bit 32. -/
theorem test_mumTail_all_ones :
    seen 0x3B (loaded (List.replicate 7 0xFF) none) = some (0x3B, 0x3B01, some 0x00FFFFFFFFFFFFFF) := by decide
/-- Remainder 31, with `TLEN[63:5]` not zero. -/
theorem test_hhPacket_31 :
    seenLanes 0xF9 (loaded rampA0 (some 0x000001000000001F)) =
      some (0xF902, some 0xA7A6A5A4A3A2A1A0, some 0xAFAEADACABAAA9A8, some 0xB7B6B5B4B3B2B1B0,
        some 0xBEBDBCBBBBBAB9B8) := by decide +kernel
/-- Remainder 14: the scatter case with `mod4 = 2`. -/
theorem test_hhPacket_14 :
    seenLanes 0x71 (loaded rampA0 (some 14)) =
      some (0x7102, some 0xA7A6A5A4A3A2A1A0, some 0x00000000ABAAA9A8, some 0x0000000000ADADAC, some 0) := by decide

/-! ### Faults (95_test_vectors.md 2.6) -/

/-- V-F-5: `RESERVED_BITS` before the length. -/
theorem test_fault_reserved_first : seen 0x14B start = some (0x14B, 0x4B24, none) := by decide
/-- V-F-3: `ILLEGAL_OP` before `RESERVED_BITS`. -/
theorem test_fault_illegal_first : seen 0x104 start = some (0x104, 0x0414, none) := by decide
/-- V-F-7. -/
theorem test_fault_fhTail_8 : seen 0x40 start = some (0x40, 0x4034, none) := by decide
/-- V-F-8. -/
theorem test_fault_mirTail_31 : seen 0xFA start = some (0xFA, 0xFA34, none) := by decide
/-- V-F-9 and V-F-10: at 8 the bound, at 6 the unsupported length. -/
theorem test_fault_mumTail :
    seen 0x43 start = some (0x43, 0x4334, none) ∧ seen 0x33 start = some (0x33, 0x3354, none) := by decide
/-- V-F-12: total length 35 leaves 3 bytes, not 4. -/
theorem test_fault_hhPacket_mismatch :
    seen 0x21 { start with tlen := some 35 } = some (0x21, 0x2144, none) := by decide

/-- The fault state that `mum.tail 6` leaves. -/
def faulted : State := (afterWord 0x33 start).getD State.reset

/-- V-X-1: a command in the fault state changes nothing. -/
theorem test_faultState_ignores_command : seen 0x3B faulted = some (0x33, 0x3354, none) := by decide
/-- V-X-2: an input write in the fault state is accepted. -/
theorem test_faultState_accepts_input :
    (nextOf (step (issued [.write 0x05 0x99] faulted))).map (fun t => (t.data[5], t.status)) =
      some (some 0x99, 0x3354) := by decide
/-- V-X-3: reset. -/
theorem test_reset_leaves_faultState :
    nextOf (step (issued [.reset] faulted)) = some { State.reset with resets := 1, clears := 2 } := by decide

/-! ### Refusals and reads (95_test_vectors.md 2.7) -/

/-- V-X-4: `fh.tail 1` uses an unwritten byte. It is no fault: the state is marked, and the refusing step has no end
state. -/
theorem test_unwritten_data_marks :
    (afterWord 0x08 State.reset).map (fun t => (t.status, t.marked)) = some (0x0801, true) ∧
    refusingStep (State.reset.withFetchWord 32 0x08) = none := by decide
/-- V-X-5: a fault check that reads no `⊥` still faults. -/
theorem test_fault_before_refusal :
    seen 0x48 State.reset = some (0x48, 0x4834, none) ∧ seen 0x1B State.reset = some (0x1B, 0x1B54, none) := by decide
/-- V-X-6: `hh.packet 0` with `TLEN` unwritten is a step that is taken, whatever bits `TLEN` holds, and refused by the
refusing step. -/
theorem test_unwritten_tlen_runs : (afterWord 0x01 State.reset).isSome = true := by decide
theorem test_unwritten_tlen_refused : refusingStep (State.reset.withFetchWord 32 0x01) = none := by
  unfold refusingStep
  show (if State.marked (if _ then _ else _) then none else some _) = none
  split <;> rfl
/-- V-X-7: a read of an output with `KIND = 0` marks and is refused by the refusing step; a reserved `SEL` and a write to
`STATUS` have no step. -/
theorem test_reads_and_refused_accesses :
    (nextOf (step (issued [.read 0x23] State.reset))).map (·.marked) = some true ∧
    refusingStep (issued [.read 0x23] State.reset) = none ∧
    refusalOf (step (issued [.read 0x28] State.reset)) = some (.reservedSelect 0x28) ∧
    refusalOf (step (issued [.write 0x22 0] State.reset)) = some (.writesReadOnly .status) := by decide
/-- R103: a value wider than its register. -/
theorem test_wide_value_refused :
    refusalOf (step (issued [.write 0x00 256] State.reset)) = some (.valueTooWide (.data 0)) ∧
    refusalOf (step (issued [.write 0x21 0x100000000] State.reset)) = some (.valueTooWide .cmd) := by decide
/-- V-X-7: `STATUS` and `CMD` read at their full width. -/
theorem test_reads_after_reset :
    (nextOf (step (issued [.read 0x22] State.reset))).bind (·.readData) = some (.word 0) ∧
    (nextOf (step (issued [.read 0x21] State.reset))).bind (·.readData) = some (.word 0) := by decide

/-- A state after a successful `hh.packet 4` (program P5). -/
def packed : State := (afterWord 0x21 (loaded [0xDE, 0xAD, 0xBE, 0xEF] (some 0x1004))).getD State.reset

/-- P5: lane 0 and a packet byte read back. -/
theorem test_read_lane_and_packet :
    (nextOf (step (issued [.read 0x24] packed))).bind (·.readData) = some (.long 0xEFBEADDE) ∧
    (nextOf (step (issued [.read 0x43] packed))).bind (·.readData) = some (.byte 0xEF) := by decide
/-- V-X-8: a word command makes `LANE` and `PACKET` `⊥`. -/
theorem test_other_kind_invalidated :
    (afterWord 0x20 packed).map (fun t => (t.status, t.result, t.lane[0], t.packet[0])) =
      some (0x2001, some 0xEFBEADDE, none, none) := by decide

/-! ### Assembler (R66, R67) -/

theorem test_parse_case_and_comment :
    parseLine "  MIR.Tail 0x5 ; five bytes" = some [.command (.mirTail 5)] ∧ parseLine "; only a comment" = some [] := by
  decide
theorem test_parse_operands :
    parseLine "wbuf 0, 0xDE, 173" = some [.wbuf 0 [0xDE, 173]] ∧ parseLine "rd.status 1" = none := by decide
theorem test_assemble_rejects_32 : assemble (.command (.fhTail 32)) = none := by decide
theorem test_assemble_hhTotal :
    assemble (.hhTotal 83) = some [.write 0x20 83, .write 0x21 0x99] := by decide

/-! ### Witnesses: states and operands that meet the hypotheses of the statements -/

/-- A state whose next access is the word. -/
def withWord (w : Nat) (s : State) : State := issued [.write 0x21 w, .read 0x22] s

/-- A coherent state in which every input is written: after reset, then the host's writes. -/
def ready : State := loaded rampA0 (some 19)

/-- The byte `A0 + i`. -/
def byteA0 (i : Nat) : Byte := BitVec.ofNat 8 (0xA0 + i)

theorem ready_coherent : Coherent ready := by
  refine ⟨?_, ?_, ?_, ?_, ?_, ?_, ?_, ?_⟩ <;> decide
theorem packed_coherent : Coherent packed := by
  refine ⟨?_, ?_, ?_, ?_, ?_, ?_, ?_, ?_⟩ <;> decide
theorem faulted_coherent : Coherent faulted := by
  refine ⟨?_, ?_, ?_, ?_, ?_, ?_, ?_, ?_⟩ <;> decide
theorem ready_inputsWritten : InputsWritten ready := by decide

theorem witness_DecodeInvertsEncode : WellFormed (.hhPacket 31) ∧ WellFormed (.mumTail 0) := by decide
theorem witness_EncodeInvertsDecode : decode 0xF9 = .ok (.hhPacket 31) := by decide
theorem witness_MaskAndMatchSelectTheCommand : (0x13B : Word32).extractLsb' 8 24 ≠ 0 := by decide

/-- For the statements about a `CMD` write outside the fault state: a legal word, an illegal one, one with reserved
bits. -/
theorem witness_command_not_faulted :
    NextIsCommand (withWord 0x99 ready) 0x99 [.read 0x22] ∧ statusFault (withWord 0x99 ready).status = 0 ∧
    decode 0x99 = .ok (.hhPacket 19) ∧
    NextIsCommand (withWord 0x07 ready) 0x07 [.read 0x22] ∧ 4 ≤ ((0x07 : Word32).extractLsb' 0 3).toNat ∧
    NextIsCommand (withWord 0x13B ready) 0x13B [.read 0x22] ∧ ((0x13B : Word32).extractLsb' 0 3).toNat < 4 ∧
    (0x13B : Word32).extractLsb' 8 24 ≠ 0 := by decide
/-- For the statements about the fault state: a command, input writes, a read, a reset. -/
theorem witness_faultState :
    statusFault faulted.status = 1 ∧ NextIsCommand (withWord 0x3B faulted) 0x3B [.read 0x22] ∧
    NextAccessIs (issued [.write (BitVec.ofNat 7 31) 255] faulted) (.write (BitVec.ofNat 7 (31 : Fin 32)) (255 : Byte).toNat) [] ∧
    NextAccessIs (issued [.write 0x20 7] faulted) (.write 0x20 (7 : Word64).toNat) [] ∧
    regOf 0x22 = some .status ∧ holdsValue .status faulted = true ∧ readReg .status faulted = .word 0x3354 ∧
    HostAccess.reset ∉ (withWord 0x3B faulted).pending.take 2 := by decide
theorem witness_FetchedWordRunsNext : WellFormed (.fhTail 7) ∧ statusFault ready.status = 0 := by decide
/-- A step that is taken, with every field the priority statement asks for. -/
theorem witness_FirstFaultInPriorityOrder :
    statusCause (withWord 0x21 ready).status = 0 ∧ (withWord 0x21 ready).tlen ≠ none ∧
    (nextOf (step (withWord 0x21 ready))).isSome = true ∧
    (nextOf (step (withWord 0x99 ready))).isSome = true := by decide
theorem witness_CommandsAlwaysComplete :
    NextIsCommand (withWord 0x99 ready) 0x99 [.read 0x22] ∧
    (∀ j : Fin 32, j.val < ((0x99 : Word32).extractLsb' 3 5).toNat → (withWord 0x99 ready).data[j] ≠ none) ∧
    (withWord 0x99 ready).tlen ≠ none := by decide
/-- A success and a fault of the kind `StatusWordAfterCommand` and `FaultEntryWritesTheCause` speak of. -/
theorem witness_status_after :
    (nextOf (step (withWord 0x99 ready))).map (fun t => statusFault t.status) = some 0 ∧
    (nextOf (step (withWord 0x21 ready))).map (fun t => statusFault t.status) = some 1 := by decide
theorem witness_RepeatedCommandChangesNothing :
    NextIsCommand (issued [.write 0x21 0x99, .write 0x21 0x99] ready) 0x99 [.write 0x21 (0x99 : Word32).toNat] ∧
    (nextOf (step (issued [.write 0x21 0x99, .write 0x21 0x99] ready))).isSome = true := by decide
/-- The shortest and the longest tail. -/
theorem witness_tail_commands :
    DataIs ready 0 byteA0 ∧ DataIs ready 7 byteA0 := by decide
theorem witness_LaneCombinersAgree : (List.replicate 8 (0xFF : Byte)).length ≤ 8 := by decide
/-- Every case of the layout: none, scatter, window at its smallest and largest. -/
theorem witness_HhPacket :
    (loaded rampA0 (some 12)).tlen = some 12 ∧ 12 = (12 : Word64).toNat % 32 ∧ DataIs (loaded rampA0 (some 12)) 12 byteA0 ∧
    DataIs (loaded rampA0 (some 47)) 15 byteA0 ∧ 15 = (47 : Word64).toNat % 32 ∧
    16 ≤ 16 ∧ DataIs (loaded rampA0 (some 16)) 16 byteA0 ∧ 16 = (16 : Word64).toNat % 32 ∧
    DataIs (loaded rampA0 (some 31)) 31 byteA0 ∧ 31 = (31 : Word64).toNat % 32 := by decide
theorem witness_PacketHoldsOnlyInputBytesAndZeros :
    (nextOf (exec (.hhPacket 19) ready)).map (fun t => statusFault t.status) = some 0 ∧
    statusFault ready.status = 0 := by decide
theorem witness_MumTailEqualsFhTail : DataIs ready 6 byteA0 ∧ statusFault ready.status = 0 := by decide
theorem witness_LengthContracts :
    (8 : Nat) ≤ 8 ∧ ready.tlen = some 19 ∧ 18 ≠ (19 : Word64).toNat % 32 ∧ LengthLegal (.fhTail 7) ready ∧
    LengthLegal (.mumTail 7) ready ∧ (nextOf (exec (.fhTail 7) ready)).isSome = true := by
  refine ⟨by decide, by decide, by decide, ?_, ?_, by decide⟩ <;> simp [LengthLegal]
theorem witness_LengthLegal_hhPacket : LengthLegal (.hhPacket 19) ready := ⟨19, rfl, rfl⟩
theorem witness_UnwrittenInputsEnterWithTheirBits :
    (8 : Nat) ≤ 8 ∧ (6 : Nat) ≤ 6 ∧ (loaded [] (some 35)).tlen = some 35 ∧ 4 ≠ (35 : Word64).toNat % 32 ∧
    NextIsCommand (withWord 0x13B State.reset) 0x13B [.read 0x22] ∧ statusFault State.reset.status = 0 ∧
    (0x13B : Word32).extractLsb' 8 24 ≠ 0 := by decide
/-- A command that uses an unwritten byte, and one that uses an unwritten `TLEN`. -/
theorem witness_UsesUnwritten : UsesUnwritten (.fhTail 7) (loaded [1, 2] none) ∧ UsesUnwritten (.hhPacket 0) State.reset :=
  ⟨.inr ⟨by simp [LengthLegal], 2, by decide, by decide⟩, .inl ⟨0, rfl, rfl⟩⟩
/-- One access for each refusal. -/
theorem witness_OnlyUnmappedAccessesAreRefusedByName :
    regOf 0x28 = none ∧ 2 ^ widthOf (.data 31) ≤ 256 ∧ 0 < 2 ^ widthOf .status ∧ regOf 0x22 = some .status ∧
    (0x22 : Select).toNat < 0x28 ∧ (refusalOf (step (issued [.read 0x28] ready))).isSome = true := by decide
/-- Two states that agree on what the command reads and differ elsewhere, both running it. -/
theorem witness_OutcomeDependsOnlyOnTheInputsRead :
    (∀ j : Fin 32, j.val < 3 → (loaded [1, 2, 3] (some 3)).data[j] = (loaded [1, 2, 3, 4] (some 35)).data[j]) ∧
    (loaded [1, 2, 3] (some 3)).tlen.map (fun T => T.extractLsb' 0 5) =
      (loaded [1, 2, 3, 4] (some 35)).tlen.map (fun T => T.extractLsb' 0 5) ∧
    (loaded [1, 2, 3] (some 3)).status = (loaded [1, 2, 3, 4] (some 35)).status ∧
    (loaded [1, 2, 3] (some 3)).source = (loaded [1, 2, 3, 4] (some 35)).source ∧
    (loaded [1, 2, 3] (some 3)).resets = (loaded [1, 2, 3, 4] (some 35)).resets ∧
    (loaded [1, 2, 3] (some 3)).marked = (loaded [1, 2, 3, 4] (some 35)).marked := by decide
theorem witness_UnwrittenBitsNeverReachAnUnmarkedOutput :
    (nextOf (exec (.fhTail 2) (loaded [0xA0, 0xA1] none))).map (·.marked) = some false ∧
    (∀ j : Fin 32, (loaded [0xA0, 0xA1] none).data[j] ≠ none → ready.data[j] = (loaded [0xA0, 0xA1] none).data[j]) := by
  decide
theorem witness_frames : (nextOf (exec (.mirTail 7) ready)).isSome = true ∧ (nextOf (exec (.mirTail 8) ready)).isSome = true := by
  decide
/-- A success of each output kind. -/
theorem witness_SuccessCommitsItsOwnKind :
    statusFault ready.status = 0 ∧ statusCause ready.status = 0 ∧
    (nextOf (exec (.hhPacket 19) ready)).map (fun t => statusFault t.status) = some 0 ∧
    (nextOf (exec (.mumTail 7) ready)).map (fun t => statusFault t.status) = some 0 := by decide
theorem witness_InputWrites :
    NextAccessIs (issued [.write (BitVec.ofNat 7 31) 255] ready) (.write (BitVec.ofNat 7 (31 : Fin 32)) (255 : Byte).toNat) [] ∧
    NextAccessIs (issued [.write 0x20 0xFFFFFFFFFFFFFFFF] ready) (.write 0x20 (BitVec.allOnes 64).toNat) [] := by decide
/-- One register of each kind, at the ends of the `SEL` ranges. -/
theorem witness_Reads :
    NextAccessIs (issued [.read (BitVec.ofNat 7 31)] ready) (.read (BitVec.ofNat 7 (31 : Fin 32))) [] ∧
    ready.data[31] = some 0xBF ∧ ready.tlen = some 19 ∧
    NextAccessIs (issued [.read (BitVec.ofNat 7 0x27)] packed) (.read (BitVec.ofNat 7 (0x24 + (3 : Fin 4)))) [] ∧
    packed.lane[3] = some 0 ∧
    NextAccessIs (issued [.read (BitVec.ofNat 7 0x5F)] packed) (.read (BitVec.ofNat 7 (0x40 + (31 : Fin 32)))) [] ∧
    packed.packet[31] = some 0 ∧ (afterWord 0x20 packed).bind (·.result) = some 0xEFBEADDE := by decide
theorem witness_ReadsAreRepeatable :
    NextAccessIs (issued [.read 0x24, .read 0x24] packed) (.read 0x24) [.read 0x24] ∧
    (nextOf (step (issued [.read 0x24, .read 0x24] packed))).isSome = true := by decide
/-- Reads of `⊥` in coherent states, and of outputs whose kind matches. -/
theorem witness_ReadsOfNoValue :
    State.reset.data[0] = none ∧ State.reset.tlen = none ∧ statusKind packed.status ≠ 1 ∧ statusKind ready.status ≠ 2 ∧
    statusKind packed.status = 2 ∧ (afterWord 0x20 packed).map (fun t => statusKind t.status) = some 1 := by decide
/-- The first and the last reserved `SEL` of each range, a read-only one, and the smallest value too wide. -/
theorem witness_UnmappedAccesses :
    (0x28 ≤ (0x28 : Select).toNat ∧ (0x3F : Select).toNat < 0x40) ∧ 0x60 ≤ (0x60 : Select).toNat ∧
    0x60 ≤ (0x7F : Select).toNat ∧ (0x22 ≤ (0x22 : Select).toNat ∧ (0x27 : Select).toNat < 0x28) ∧
    (0x5F : Select).toNat < 0x60 ∧ (0x1F : Select).toNat < 0x20 ∧ 2 ^ 8 ≤ 256 ∧
    NextAccessIs (issued [.write 0x1F 256] ready) (.write 0x1F 256) [] := by decide
theorem witness_AllowedAccesses :
    NextAccessIs (issued [.write 0x21 0xFFFFFFFF] ready) (.write 0x21 0xFFFFFFFF) [] ∧
    accessAllowed (.write 0x21 0xFFFFFFFF) ready = true ∧ accessAllowed (.read 0x5F) packed = true := by decide
theorem witness_Reset : NextAccessIs (issued [.reset] faulted) .reset [] := by decide
theorem witness_Idle : ready.pending = [] := by decide
theorem witness_AccessesTakeEffectInIssueOrder :
    NextAccessIs (withWord 0x99 ready) (.write 0x21 (0x99 : Word32).toNat) [.read 0x22] ∧
    (withWord 0x99 ready).pending = [.write 0x21 0x99] ++ [.read 0x22] ∧
    nextOf (Host.Core.run Sys2Proof.core 1 (withWord 0x99 ready)) ≠ none := by decide
theorem witness_StepKeepsCoherent : (nextOf (step (withWord 0x99 ready))).isSome = true ∧ (withWord 0x99 ready).status = 0 := by
  decide
/-- Steps on which `FAULT_OUT` rises, falls, and neither. -/
theorem witness_FaultOut :
    faultOut (withWord 0x21 ready) = 0 ∧ (nextOf (step (withWord 0x21 ready))).map faultOut = some 1 ∧
    faultOut (issued [.reset] faulted) = 1 ∧ (nextOf (step (issued [.reset] faulted))).map faultOut = some 0 := by decide
/-- A step that is neither a reset nor a write, and one that writes another register. -/
theorem witness_unchanged :
    (issued [.read 0x22] ready).pending.head? ≠ some .reset ∧ (nextOf (step (issued [.read 0x22] ready))).isSome = true ∧
    (nextOf (step (issued [.write 0x20 5] ready))).isSome = true := by decide
/-- Steps that mark and that leave a mark. -/
theorem witness_OnlyUsesOfNoValueMark :
    (nextOf (step (issued [.read 0x00] State.reset))).map (·.marked) = some true ∧
    (nextOf (step (issued [.read 0x22] { State.reset with marked := true }))).map (·.marked) = some true := by decide
/-- A read of `⊥`, a use of an unwritten byte, a marked state, and a step that uses no `⊥`. -/
theorem witness_RefusingStep :
    NextAccessIs (issued [.read 0x00] State.reset) (.read 0x00) [] ∧ regOf 0x00 = some (.data 0) ∧
    holdsValue (.data 0) State.reset = false ∧ NextIsCommand (withWord 0x38 (loaded [1, 2] none)) 0x38 [.read 0x22] ∧
    decode 0x38 = .ok (.fhTail 7) ∧ (refusingStep (issued [.write 0x20 5] State.reset)).isSome = true ∧
    (refusingStep (withWord 0x99 ready)).isSome = true := by decide
/-- A `Reset` that takes an input and an output away, and a command that takes `PACKET` and `LANE` away. -/
theorem witness_NewFreeBits :
    (nextOf (step (issued [.reset] packed))).isSome = true ∧ packed.data[0] ≠ none ∧ packed.tlen ≠ none ∧
    packed.packet[31] ≠ none ∧ (afterWord 0x20 packed).map (fun t => (t.lane[3], t.packet[31])) = some (none, none) ∧
    (afterWord 0x20 packed).bind (·.result) ≠ none := by decide
theorem witness_Assembler : 31 < (Instr.fhTail 32).len ∧ [(1 : Nat)] ≠ [] ∧ 30 + [(1 : Nat)].length ≤ 31 := by decide
/-- Two instances, each with an access to take. -/
theorem witness_InstancesShareNothing :
    let p : Platform 2 := Vector.ofFn fun k => if k = 0 then withWord 0x99 ready else issued [.read 0x22] ready
    (nextOf (step p[0])).isSome = true ∧ (nextOf (step p[1])).isSome = true ∧ (0 : Fin 2) ≠ 1 := by decide

end Sys2Proof.Tests
end

section
/-! PROOF. `LE64` and `LE32` as numbers (00_scope.md R12): each byte lies at its own place, and the sum of the bytes at
their places fits the word, so the word additions do not wrap. -/

namespace Sys2Proof.Proofs
open Sys2Proof Sys2Proof.Machine

/-- A byte shifted within a word loses no bit. -/
theorem toNat_setWidth_shiftLeft_of_byte {w k : Nat} (b : Byte) (fits : 8 + k ≤ w) :
    (b.setWidth w <<< k).toNat = b.toNat * 2 ^ k := by
  have place_lt : b.toNat * 2 ^ k < 2 ^ w :=
    calc b.toNat * 2 ^ k < 2 ^ 8 * 2 ^ k := Nat.mul_lt_mul_of_pos_right b.isLt (Nat.two_pow_pos k)
      _ = 2 ^ (8 + k) := (Nat.pow_add 2 8 k).symm
      _ ≤ 2 ^ w := Nat.pow_le_pow_right Nat.two_pos fits
  rw [BitVec.toNat_shiftLeft, BitVec.toNat_setWidth_of_le (by omega), Nat.shiftLeft_eq, Nat.mod_eq_of_lt place_lt]

theorem le32_toNat (b0 b1 b2 b3 : Byte) :
    (le32 b0 b1 b2 b3).toNat = b0.toNat + b1.toNat * 2 ^ 8 + b2.toNat * 2 ^ 16 + b3.toNat * 2 ^ 24 := by
  simp only [le32, BitVec.toNat_add, Nat.mod_add_mod, toNat_setWidth_shiftLeft_of_byte, Nat.reduceAdd, Nat.reduceLeDiff,
    BitVec.toNat_setWidth_of_le]
  exact Nat.mod_eq_of_lt (by omega)

theorem le64_toNat (b0 b1 b2 b3 b4 b5 b6 b7 : Byte) :
    (le64 b0 b1 b2 b3 b4 b5 b6 b7).toNat =
      b0.toNat + b1.toNat * 2 ^ 8 + b2.toNat * 2 ^ 16 + b3.toNat * 2 ^ 24 + b4.toNat * 2 ^ 32 + b5.toNat * 2 ^ 40
        + b6.toNat * 2 ^ 48 + b7.toNat * 2 ^ 56 := by
  simp only [le64, BitVec.toNat_add, Nat.mod_add_mod, toNat_setWidth_shiftLeft_of_byte, Nat.reduceAdd, Nat.reduceLeDiff,
    BitVec.toNat_setWidth_of_le]
  exact Nat.mod_eq_of_lt (by omega)

/-- Settles O34: the eight (four) places of the sum written out are the word's value, which does not wrap. -/
theorem littleEndianAssembly : Obligations.LittleEndianAssembly := by
  unfold Obligations.LittleEndianAssembly
  constructor
  · intro b
    rw [le64_toNat, Fin.sum_univ_eight]
    simp
  · intro b
    rw [le32_toNat, Fin.sum_univ_four]
    simp

end Sys2Proof.Proofs
end

section
/-! PROOF. The register values of the first state (10_state.md R37): a register bank of which every entry is `⊥` reads
`⊥` at each index. -/

namespace Sys2Proof.Proofs
open Sys2Proof Sys2Proof.Machine Sys2Proof.Spec

/-- The output banks are cleared as whole vectors; `NoOutputs` speaks of each register. -/
theorem noOutputs_of_replicate {t : State} (result : t.result = none) (lane : t.lane = Vector.replicate 4 none)
    (packet : t.packet = Vector.replicate 32 none) : NoOutputs t where
  result := result
  lane k := by rw [lane, Fin.getElem_fin, Vector.getElem_replicate]
  packet i := by rw [packet, Fin.getElem_fin, Vector.getElem_replicate]

theorem reset_resetValues : ResetValues State.reset where
  data i := Vector.getElem_replicate i.isLt
  tlen := rfl
  cmd := rfl
  status := rfl
  outputs := noOutputs_of_replicate rfl rfl rfl

/-- Settles O43: register by register, and the machine starts in `State.reset`. -/
theorem powerOnHoldsResetValues : Obligations.PowerOnHoldsResetValues :=
  ⟨reset_resetValues, rfl⟩

end Sys2Proof.Proofs
end

section
/-! PROOF. A platform's instances share nothing (20_memory.md R55, 60_exceptions.md R120): a platform step is one
instance's own step, put back in that instance's place. -/

namespace Sys2Proof.Proofs
open Sys2Proof Sys2Proof.Machine

/-- All that a platform step can do when it goes on. -/
theorem platformStep_eq_next_iff {n : Nat} {k : Fin n} {p q : Platform n} :
    platformStep k p = .next q ↔ ∃ s, step p[k] = .next s ∧ q = p.set k s := by
  unfold platformStep
  cases step p[k] <;> simp [eq_comm]

/-- Settles O58: the step writes the one place `k` of the vector and reads no other, so writes at two places commute. -/
theorem instancesShareNothing : Obligations.InstancesShareNothing := by
  unfold Obligations.InstancesShareNothing
  simp only [platformStep_eq_next_iff]
  intro n p k
  refine ⟨?own, ?taken, ?commute⟩
  case own =>
    rintro _ ⟨s, stepped, rfl⟩
    refine ⟨by simpa using stepped, fun j apart => ?_⟩
    exact Vector.getElem_set_ne k.isLt j.isLt (Fin.val_ne_of_ne apart.symm)
  case taken =>
    intro s stepped
    exact ⟨p.set k s, ⟨s, stepped, rfl⟩, Vector.getElem_set_self k.isLt⟩
  case commute =>
    rintro j _ _ apart ⟨s, steppedJ, rfl⟩ ⟨t, steppedK, rfl⟩
    have placesApart : j.val ≠ k.val := Fin.val_ne_of_ne apart
    have sameK : (p.set j s)[k] = p[k] := Vector.getElem_set_ne j.isLt k.isLt placesApart
    have sameJ : (p.set k t)[j] = p[j] := Vector.getElem_set_ne k.isLt j.isLt placesApart.symm
    exact ⟨(p.set j s).set k t, ⟨t, sameK ▸ steppedK, rfl⟩, ⟨s, sameJ ▸ steppedJ, Vector.set_comm s t placesApart⟩⟩

end Sys2Proof.Proofs
end

section
/-! PROOF. The command format on the encoder's side (30_encoding.md R57, R60, R64): the word of a command is the number
`8 * LEN + OP`, it decodes to its command, and a word without one has its error by its `OP` field. -/

namespace Sys2Proof.Proofs
open Sys2Proof

theorem decode_encode {i : Instr} (fits : WellFormed i) : decode (encode i) = .ok i := by
  have bound : i.len ≤ 31 := (wellFormed_iff i).1 fits
  obtain ⟨op, len, rsv⟩ := fields_append (BitVec.ofNat 5 i.len) (opcodeOf i)
  have lenKept : (lenField (encode i)).toNat = i.len := by
    rw [encode, len, BitVec.toNat_ofNat, Nat.mod_eq_of_lt (by omega)]
  simp only [decode, lenKept]
  rw [encode, op, rsv]
  cases i <;> rfl

/-- In a well-formed command's word `LEN` stands at bit 3 and `OP` below it. -/
theorem encode_eq_ofNat {i : Instr} (fits : WellFormed i) :
    encode i = BitVec.ofNat 32 (8 * i.len + (opcodeOf i).toNat) := by
  have bound : i.len ≤ 31 := (wellFormed_iff i).1 fits
  have opBound : (opcodeOf i).toNat < 2 ^ 3 := (opcodeOf i).isLt
  apply BitVec.eq_of_toNat_eq
  simp only [encode, BitVec.toNat_append, BitVec.toNat_ofNat, Nat.zero_mod, Nat.zero_mul, Nat.zero_or,
    Nat.shiftLeft_eq, Nat.mul_comm _ (2 ^ 3)]
  rw [← Nat.two_pow_add_eq_or_of_lt opBound]
  omega

theorem decode_illegalOp_of_ge {w : Word32} (reserved : 4 ≤ (opField w).toNat) : decode w = .error .illegalOp := by
  simp only [decode, commandOf_of_ge reserved]

theorem decode_reservedBits_of_ne {w : Word32} (legal : (opField w).toNat < 4) (set : rsvField w ≠ 0) :
    decode w = .error .reservedBits := by
  rcases decode_cases w with ⟨h, -⟩ | ⟨-, -, h⟩ | ⟨-, h, -⟩ | ⟨-, h, -⟩ | ⟨-, h, -⟩ | ⟨-, h, -⟩
  · omega
  · exact h
  all_goals exact absurd h set

end Sys2Proof.Proofs
end

section
/-! PROOF. A `CMD` write of a word that selects no command (30_encoding.md R62, R63): the word is accepted
(44_host_interface.md R98) and the decoding error is the fault taken (60_exceptions.md R111). -/

namespace Sys2Proof.Proofs
open Sys2Proof Sys2Proof.Machine Sys2Proof.Spec

theorem acceptWord_wordAccepted (w : Word32) (rest : List HostAccess) (s : State) :
    WordAccepted w rest s (acceptWord w { s with pending := rest }) where
  cmd := rfl
  lastOp := acceptWord_lastOp w _
  lastLen := acceptWord_lastLen w _
  kind := by simp
  fault := by simp
  cause := by simp
  bit3 := by simp
  high := by simp
  others := rfl

/-- Taking a fault leaves what R111 says, whether or not the command has marked the state before it. -/
theorem takeFault_noteUse_faultTaken (c : FaultCause) (held : Bool) (s : State) :
    FaultTaken (causeCode c) s (takeFault c (noteUse held s)) where
  fault := by simp
  cause := by simp
  kind := by simp [kindNone]
  outputs := noOutputs_of_replicate rfl rfl rfl
  last := ⟨by simp, by simp, by simp, by simp⟩
  inputs := ⟨rfl, rfl, rfl, rfl, rfl, rfl, rfl⟩

theorem takeFault_faultTaken (c : FaultCause) (s : State) : FaultTaken (causeCode c) s (takeFault c s) := by
  simpa using takeFault_noteUse_faultTaken c true s

/-- The next access reaches `CMD` with the whole word. -/
theorem step_nextIsCommand {s : State} {w : Word32} {rest : List HostAccess} (next : NextIsCommand s w rest) :
    step s = issueCommand w { s with pending := rest } := by
  have fits : ¬ 2 ^ widthOf .cmd ≤ w.toNat := Nat.not_le.2 w.isLt
  have toCmd : regOf 0x21 = some .cmd := by decide
  rw [step_cons next, performAccess, hostWrite, toCmd]
  simp only [fits, if_false, writeReg, BitVec.ofNat_toNat, BitVec.setWidth_eq]

theorem issueCommand_of_decode_error {s : State} {w : Word32} {e : DecodeError} (running : statusFault s.status = 0)
    (undecoded : decode w = .error e) :
    issueCommand w s = .next (takeFault (decodeCause e) (acceptWord w s)) := by
  simp [issueCommand, inFaultState, running, undecoded]

/-- The step of a word that does not decode, in terms of the state that has accepted it. -/
theorem step_of_decode_error {s : State} {w : Word32} {rest : List HostAccess} {e : DecodeError}
    (next : NextIsCommand s w rest) (running : statusFault s.status = 0) (undecoded : decode w = .error e) :
    ∃ a t, WordAccepted w rest s a ∧ step s = .next t ∧ FaultTaken (causeCode (decodeCause e)) a t :=
  ⟨_, _, acceptWord_wordAccepted w rest s,
    (step_nextIsCommand next).trans (issueCommand_of_decode_error running undecoded), takeFault_faultTaken _ _⟩

/-- Settles O8: the decoder answers `illegalOp` whatever the other bits, and that error is cause 1. -/
theorem reservedOpcodeTakesIllegalOp : Obligations.ReservedOpcodeTakesIllegalOp :=
  fun _ _ _ next running reserved => step_of_decode_error next running (decode_illegalOp_of_ge reserved)

/-- Settles O9: the decoder answers `reservedBits`, which is cause 2; its answers are a command and two errors. -/
theorem reservedBitsTakeReservedBits : Obligations.ReservedBitsTakeReservedBits := by
  refine ⟨fun _ _ _ next running legal set =>
    step_of_decode_error next running (decode_reservedBits_of_ne legal set), fun w => ?_⟩
  cases decode w with
  | ok i => exact .inl ⟨i, rfl⟩
  | error e =>
    cases e with
    | illegalOp => exact .inr (.inl rfl)
    | reservedBits => exact .inr (.inr rfl)

end Sys2Proof.Proofs
end

section
/-! PROOF. The length contracts (30_encoding.md R64): every `LEN` has a word, a broken contract is a fault of the
command's own step, and under a legal length the step commits. -/

namespace Sys2Proof.Proofs
open Sys2Proof Sys2Proof.Machine Sys2Proof.Spec

theorem remainderOf_eq_mod (T : Word64) : remainderOf T = T.toNat % 32 := by
  simp [remainderOf]

theorem decode_ofNat {i : Instr} (bound : i.len ≤ 31) :
    decode (BitVec.ofNat 32 (8 * i.len + (opcodeOf i).toNat)) = .ok i := by
  have fits : WellFormed i := (wellFormed_iff i).2 bound
  rw [← encode_eq_ofNat fits, decode_encode fits]

/-- With a legal length the command takes no fault: it commits a word or a packet. -/
theorem exec_commits_of_lengthLegal {i : Instr} {s t : State} (legal : LengthLegal i s) (ran : exec i s = .next t) :
    (∃ v held, t = commitWord v (noteUse held s)) ∨ ∃ p held, t = commitPacket p (noteUse held s) := by
  cases i with
  | fhTail n =>
    have short : n ≤ 7 := legal
    rcases execFhTail_eq_next.1 ran with ⟨long, -⟩ | ⟨-, rfl⟩
    · omega
    · exact .inl ⟨_, _, rfl⟩
  | hhPacket n =>
    obtain ⟨T, held, matching⟩ := legal
    rw [← remainderOf_eq_mod, ← tlenBits_of_some held] at matching
    rcases execHhPacket_eq_next.1 ran with ⟨broken, -⟩ | ⟨-, rfl⟩
    · exact absurd matching broken
    · exact .inr ⟨_, _, by rw [noteInput, noteUse_noteUse]⟩
  | mirTail n =>
    have short : n ≤ 7 := legal
    rcases execMirTail_eq_next.1 ran with ⟨long, -⟩ | ⟨-, rfl⟩
    · omega
    · exact .inl ⟨_, _, rfl⟩
  | mumTail n =>
    have seven : n = 7 := legal
    rcases execMumTail_eq_next.1 ran with ⟨long, -⟩ | ⟨short, -⟩ | ⟨-, rfl⟩
    · omega
    · omega
    · exact .inl ⟨_, _, rfl⟩

theorem exec_keeps_fault_of_lengthLegal {i : Instr} {s t : State} (legal : LengthLegal i s) (ran : exec i s = .next t) :
    statusFault t.status = statusFault s.status ∧ statusCause t.status = statusCause s.status := by
  rcases exec_commits_of_lengthLegal legal ran with ⟨v, held, rfl⟩ | ⟨p, held, rfl⟩ <;> simp

/-- Settles O26: the words decode because they are encodings; each broken contract is the fault branch of its command. -/
theorem lengthContractsFaultWhenBroken : Obligations.LengthContractsFaultWhenBroken := by
  refine ⟨?decodes, ?fhLong, ?mirLong, ?mumLong, ?mumShort, ?hhMismatch, ?legal⟩
  case decodes =>
    intro n bound
    exact ⟨decode_ofNat (i := .fhTail n) bound, decode_ofNat (i := .hhPacket n) bound,
      decode_ofNat (i := .mirTail n) bound, decode_ofNat (i := .mumTail n) bound⟩
  case fhLong =>
    exact fun s n long => ⟨_, execFhTail_eq_next.2 (.inl ⟨long, rfl⟩), takeFault_faultTaken .lengthBound s⟩
  case mirLong =>
    exact fun s n long => ⟨_, execMirTail_eq_next.2 (.inl ⟨long, rfl⟩), takeFault_faultTaken .lengthBound s⟩
  case mumLong =>
    exact fun s n long => ⟨_, execMumTail_eq_next.2 (.inl ⟨long, rfl⟩), takeFault_faultTaken .lengthBound s⟩
  case mumShort =>
    exact fun s n short => ⟨_, execMumTail_eq_next.2 (.inr (.inl ⟨Nat.lt_succ_of_le short, rfl⟩)),
      takeFault_faultTaken .lengthUnsupported s⟩
  case hhMismatch =>
    intro s n T held broken
    rw [← remainderOf_eq_mod, ← tlenBits_of_some held] at broken
    exact ⟨_, execHhPacket_eq_next.2 (.inl ⟨broken, rfl⟩), takeFault_noteUse_faultTaken .lengthMismatch _ s⟩
  case legal => exact fun s t i => exec_keeps_fault_of_lengthLegal

end Sys2Proof.Proofs
end

section
/-! PROOF. The pseudo-instructions (30_encoding.md R67): what the lines of R66 assemble to, where the assembler takes
them, and each pseudo-instruction in terms of those. -/

namespace Sys2Proof.Proofs
open Sys2Proof Sys2Proof.Machine

theorem assemble_wr {sel : Nat} (mapped : sel < 128) (v : Nat) :
    assemble (.wr sel v) = some [.write (BitVec.ofNat 7 sel) v] := if_pos mapped

theorem assemble_rd {sel : Nat} (mapped : sel < 128) : assemble (.rd sel) = some [.read (BitVec.ofNat 7 sel)] :=
  if_pos mapped

theorem assemble_command {i : Instr} (fits : WellFormed i) : assemble (.command i) = some [commandAccess i] :=
  if_pos fits

theorem assemble_wbuf {i : Nat} {bytes : List Nat} (nonempty : bytes ≠ []) (room : i + bytes.length ≤ 32) :
    assemble (.wbuf i bytes) = some (writeBytes i bytes) := if_pos ⟨nonempty, room⟩

theorem assemble_wd {i v : Nat} (index : i ≤ 31) (value : v ≤ 255) : assemble (.wd i v) = assemble (.wr i v) := by
  rw [assemble_wr (by omega)]
  exact if_pos ⟨index, value⟩

theorem assemble_wbuf_singleton {i : Nat} (index : i ≤ 31) (b : Nat) : assemble (.wbuf i [b]) = assemble (.wr i b) := by
  rw [assemble_wbuf (List.cons_ne_nil b []) (Nat.succ_le_succ index), assemble_wr (by omega)]
  rfl

/-- `wbuf` writes its first byte, then the others from the next index on. -/
theorem assemble_wbuf_cons {i : Nat} (b : Nat) {bytes : List Nat} (nonempty : bytes ≠ []) (room : i + bytes.length ≤ 31) :
    assemble (.wbuf i (b :: bytes)) =
      (assemble (.wr i b)).bind fun first => (assemble (.wbuf (i + 1) bytes)).map (first ++ ·) := by
  rw [assemble_wbuf (List.cons_ne_nil b bytes) (by rw [List.length_cons]; omega), assemble_wr (by omega),
    assemble_wbuf nonempty (by omega)]
  rfl

/-- `hh.total` writes the total length, then the command for its remainder, which always has an encoding. -/
theorem assemble_hhTotal (t : Nat) :
    assemble (.hhTotal t) =
      (assemble (.wr 0x20 t)).bind fun first => (assemble (.command (.hhPacket (t % 32)))).map (first ++ ·) := by
  have mask : t &&& 31 = t % 32 := Nat.and_two_pow_sub_one_eq_mod t 5
  have fits : WellFormed (.hhPacket (t % 32)) := (wellFormed_iff _).2 (Nat.le_of_lt_succ (Nat.mod_lt t (by decide)))
  rw [assemble_wr (by decide), assemble_command fits, assemble, mask]
  rfl

theorem assemble_cmd {w : Nat} (fits : w < 2 ^ 32) : assemble (.cmd w) = assemble (.wr 0x21 w) := if_pos fits

theorem assemble_rdLane {k : Nat} (index : k ≤ 3) : assemble (.rdLane k) = assemble (.rd (0x24 + k)) := by
  rw [assemble_rd (by omega)]
  exact if_pos index

theorem assemble_rdPacket {i : Nat} (index : i ≤ 31) : assemble (.rdPacket i) = assemble (.rd (0x40 + i)) := by
  rw [assemble_rd (by omega)]
  exact if_pos index

/-- Settles O57: one line of R67's table after another; `wt`, `rd.status` and `rd.result` name fixed registers. -/
theorem assemblerExpansions : Obligations.AssemblerExpansions :=
  ⟨fun _ _ => assemble_wd, fun _ b index => assemble_wbuf_singleton index b, fun _ b _ => assemble_wbuf_cons b,
    fun _ => rfl, assemble_hhTotal, fun _ => assemble_cmd, rfl, rfl, fun _ => assemble_rdLane, fun _ => assemble_rdPacket⟩

end Sys2Proof.Proofs
end

section
/-! PROOF. The lane placement of `FH.TAIL` (40_fasthash.md R70): lane `j` of a word is its bits `8j+7:8j`; the loop of
R72 changes lane `i` alone when it takes byte `i`. -/

namespace Sys2Proof.Proofs
open Sys2Proof Sys2Proof.Machine Sys2Proof.Spec

/-- A byte moved to its own lane stands there whole, and every other lane is zero. -/
theorem lane_setWidth_shiftLeft {i : Nat} (inWord : i < 8) (j : Nat) (b : Byte) :
    (b.setWidth 64 <<< (8 * i)).extractLsb' (8 * j) 8 = if j = i then b else 0 := by
  ext k hk
  rcases Nat.lt_trichotomy j i with below | rfl | above
  · have beforeByte : 8 * j + k < 8 * i := by omega
    simp [Nat.ne_of_lt below, beforeByte]
  · have bitInWord : 8 * j + k < 64 := by omega
    simp [bitInWord, hk]
  · have pastByte : 8 ≤ 8 * j + k - 8 * i := by omega
    simp [Nat.ne_of_gt above, BitVec.getLsbD_of_ge b _ pastByte]

/-- The loop leaves the lanes below `i` alone and places its bytes, in order, from lane `i` on. -/
theorem placeLanes_lane {i : Nat} {bytes : List Byte} (short : i + bytes.length ≤ 8) (v : Word64) (j : Nat) :
    (placeLanes i v bytes).extractLsb' (8 * j) 8 =
      v.extractLsb' (8 * j) 8 ^^^ if i ≤ j then byteAt bytes (j - i) else 0 := by
  induction bytes generalizing i v with
  | nil => simp [placeLanes]
  | cons b rest ih =>
    rw [List.length_cons] at short
    rw [placeLanes, ih (by omega), BitVec.extractLsb'_xor, lane_setWidth_shiftLeft (by omega), BitVec.xor_assoc]
    congr 1
    rcases Nat.lt_trichotomy j i with below | rfl | above
    · have belowNext : ¬ i + 1 ≤ j := by omega
      simp [Nat.ne_of_lt below, Nat.not_le.2 below, belowNext]
    · simp
    · obtain ⟨m, rfl⟩ := Nat.exists_eq_add_of_lt above
      have fromNext : i + (m + 1) - (i + 1) = m := by omega
      simp [Nat.add_assoc, fromNext]

/-- Lane `j` of the packed word is byte `j`, and zero where there is none. -/
theorem fastHashWord_lane {bytes : List Byte} (short : bytes.length ≤ 8) (j : Nat) :
    (fastHashWord bytes).extractLsb' (8 * j) 8 = byteAt bytes j := by
  rw [fastHashWord, placeLanes_lane (by omega)]
  simp

end Sys2Proof.Proofs
end

section
/-! PROOF. A word command on written inputs: the bytes it reads, and what its commit leaves (44_host_interface.md R99). -/

namespace Sys2Proof.Proofs
open Sys2Proof Sys2Proof.Machine Sys2Proof.Spec

theorem readInput_eq_map {s : State} {n : Nat} {D : Nat → Byte} (bound : n ≤ 32) (written : DataIs s n D) :
    readInput n s = (List.range n).map D := by
  refine List.map_congr_left fun j inRange => ?_
  have below : j < n := List.mem_range.1 inRange
  have buffered : j < 32 := by omega
  exact dataBits_of_some ((dataByte_of_lt buffered s).trans (written ⟨j, buffered⟩ below))

theorem byteAt_map_range (n : Nat) (D : Nat → Byte) (j : Nat) : byteAt ((List.range n).map D) j = padded n D j := by
  by_cases below : j < n <;> simp [byteAt, padded, below]

/-- Committing a word leaves what R99 says, whether or not the command has marked the state before it. -/
theorem commitWord_noteUse_wordCommitted (v : Word64) (held : Bool) (s : State) :
    WordCommitted v s (commitWord v (noteUse held s)) where
  result := rfl
  lane k := Vector.getElem_replicate k.isLt
  packet i := Vector.getElem_replicate i.isLt
  kind := by simp [kindWord]
  fault := by simp
  cause := by simp
  last := ⟨by simp, by simp, by simp, by simp⟩
  inputs := ⟨rfl, rfl, rfl, rfl, rfl, rfl, rfl⟩

end Sys2Proof.Proofs
end

section
/-! PROOF. `FH.TAIL` on written inputs (40_fasthash.md R72). -/

namespace Sys2Proof.Proofs
open Sys2Proof Sys2Proof.Machine Sys2Proof.Spec

/-- Up to seven bytes `FH.TAIL` commits the word of the loop over `D 0 … D (n-1)`. -/
theorem exec_fhTail_commits {s : State} {n : Nat} {D : Nat → Byte} (short : n ≤ 7) (written : DataIs s n D) :
    ∃ t, exec (.fhTail n) s = .next t ∧ WordCommitted (fastHashWord ((List.range n).map D)) s t := by
  rw [← readInput_eq_map (by omega) written]
  exact ⟨_, execFhTail_eq_next.2 (.inr ⟨short, rfl⟩), commitWord_noteUse_wordCommitted _ _ s⟩

theorem fastHashWord_map_range_lane {n : Nat} (short : n ≤ 8) (D : Nat → Byte) (j : Nat) :
    (fastHashWord ((List.range n).map D)).extractLsb' (8 * j) 8 = padded n D j := by
  rw [fastHashWord_lane (by simpa using short), byteAt_map_range]

/-- Settles O14: lane `i` of the committed word is byte `i` of the input padded with zeros. -/
theorem fhTailGivesEachByteItsLane : Obligations.FhTailGivesEachByteItsLane := by
  unfold Obligations.FhTailGivesEachByteItsLane
  intro s n D short written
  obtain ⟨t, ran, committed⟩ := exec_fhTail_commits short written
  have lane := fastHashWord_map_range_lane (show n ≤ 8 by omega) D
  exact ⟨t, _, ran, committed, fun i below => (lane i).trans (if_pos below),
    fun i above => (lane i).trans (if_neg (Nat.not_lt.2 above))⟩

end Sys2Proof.Proofs
end

section
/-! PROOF. The length quantities of `HH.PACKET` (41_highwayhash.md R75) as quotients and remainders. -/

namespace Sys2Proof.Proofs
open Sys2Proof Sys2Proof.Machine

theorem mod4Of_eq_mod (n : Nat) : mod4Of n = n % 4 := Nat.and_two_pow_sub_one_eq_mod n 2

/-- Over the five bits of a remainder, `0b11100` masks off the two lowest. -/
theorem diff4Of_eq_mul_div {n : Nat} (bound : n < 32) : diff4Of n = 4 * (n / 4) := by
  have masked : ∀ r : Fin 32, r.val &&& 0b11100 = 4 * (r.val / 4) := by decide
  exact masked ⟨n, bound⟩

theorem diff4Of_add_mod4Of {n : Nat} (bound : n < 32) : diff4Of n + mod4Of n = n := by
  rw [diff4Of_eq_mul_div bound, mod4Of_eq_mod, Nat.div_add_mod]

/-- Bit 4 of a remainder, which selects the window, says that it is 16 or more. -/
theorem and_sixteen_eq_zero_iff {n : Nat} (bound : n < 32) : n &&& 16 = 0 ↔ n < 16 := by
  have bit4 : ∀ r : Fin 32, r.val &&& 16 = 0 ↔ r.val < 16 := by decide
  exact bit4 ⟨n, bound⟩

theorem remainderOf_lt (T : Word64) : remainderOf T < 32 := BitVec.isLt _

/-- Settles O18: each mask is a quotient or a remainder by a power of two. -/
theorem lengthQuantities : Obligations.LengthQuantities := by
  unfold Obligations.LengthQuantities
  intro T
  have bound := remainderOf_lt T
  refine ⟨remainderOf_eq_mod T, ?diff4, ?mod4, (diff4Of_add_mod4Of bound).symm, Nat.le_of_lt_succ bound, ?zero⟩
  case diff4 => rw [diff4Of_eq_mul_div bound, remainderOf_eq_mod]
  case mod4 => rw [mod4Of_eq_mod, remainderOf_eq_mod, Nat.mod_mod_of_dvd _ (by decide)]
  case zero => rw [remainderOf_eq_mod, Nat.dvd_iff_mod_eq_zero]

end Sys2Proof.Proofs
end

section
/-! PROOF. The packet of `HH.PACKET` byte by byte (41_highwayhash.md R77–R80): the builder's steps against the
table, and the table as a function of the tail region alone. -/

namespace Sys2Proof.Proofs
open Sys2Proof Sys2Proof.Machine Sys2Proof.Spec

/-- The three cases of R86 with the length quantities as numbers. -/
theorem buildPacket_cases_of_lt {n : Nat} (bound : n < 32) (bytes : List Byte) :
    let p := copyBytes (4 * (n / 4)) 0 0 bytes zeroPacket
    (16 ≤ n ∧ buildPacket n bytes = copyBytes 4 28 (n - 4) bytes p) ∨
    (n < 16 ∧ n % 4 ≠ 0 ∧ buildPacket n bytes = scatterBytes (4 * (n / 4)) (n % 4) bytes p) ∨
    (n < 16 ∧ n % 4 = 0 ∧ buildPacket n bytes = p) := by
  simpa only [ne_eq, and_sixteen_eq_zero_iff bound, Nat.not_lt, diff4Of_eq_mul_div bound, mod4Of_eq_mod,
    Nat.div_add_mod] using buildPacket_cases n bytes

/-- The steps of R76 leave the byte the table gives, at each position. -/
theorem buildPacket_getElem {n : Nat} (bound : n < 32) (bytes : List Byte) {j : Nat} (inPacket : j < 32) :
    (buildPacket n bytes)[j] = packetByte n (byteAt bytes) j := by
  have copied : (copyBytes (4 * (n / 4)) 0 0 bytes zeroPacket)[j] = if j < 4 * (n / 4) then byteAt bytes j else 0 := by
    simp [copyBytes_getElem]
  rcases buildPacket_cases_of_lt bound bytes with ⟨long, built⟩ | ⟨short, leftOver, built⟩ | ⟨short, noneLeft, built⟩
  · rw [built, copyBytes_getElem, copied, packetByte, if_pos long]
    by_cases window : 28 ≤ j
    · have pastCopy : ¬ j < 4 * (n / 4) := by omega
      simp [window, pastCopy, inPacket]
    · simp [window]
  · rw [built, scatterBytes_getElem, copied, packetByte, if_neg (Nat.not_le.2 short), if_neg leftOver, Nat.div_add_mod]
    by_cases scattered : j = 16 ∨ j = 17 ∨ j = 18
    · have pastCopy : ¬ j < 4 * (n / 4) := by omega
      rcases scattered with rfl | rfl | rfl <;> simp [pastCopy]
    · obtain ⟨not16, not17, not18⟩ : j ≠ 16 ∧ j ≠ 17 ∧ j ≠ 18 := by omega
      simp [not16, not17, not18, not16.symm, not17.symm, not18.symm]
  · rw [built, copied, packetByte, if_neg (Nat.not_le.2 short), if_pos noneLeft]

/-- The table reads no input byte past the tail region. -/
theorem packetByte_padded {n : Nat} (D : Nat → Byte) {j : Nat} (inPacket : j < 32) :
    packetByte n (padded n D) j = packetByte n D j := by
  have kept {i : Nat} (h : i < n) : padded n D i = D i := if_pos h
  unfold packetByte
  split_ifs
  · exact kept (by omega)
  · exact kept (by omega)
  · rfl
  · rfl
  · exact kept (by omega)
  · exact kept (by omega)
  · exact kept (by omega)
  · rfl

end Sys2Proof.Proofs
end

section
/-! PROOF. The lanes of a packet (41_highwayhash.md R81) and what its commit leaves (44_host_interface.md R99). -/

namespace Sys2Proof.Proofs
open Sys2Proof Sys2Proof.Machine Sys2Proof.Spec

/-- Byte `m` of a little-endian word (R12): the bytes before it sum to less than its place, those after it are multiples
of the next place. -/
theorem le64_extractLsb (b : Nat → Byte) (m : Fin 8) :
    (le64 (b 0) (b 1) (b 2) (b 3) (b 4) (b 5) (b 6) (b 7)).extractLsb' (8 * m.val) 8 = b m.val := by
  apply BitVec.eq_of_toNat_eq
  rw [BitVec.extractLsb'_toNat, le64_toNat, Nat.shiftRight_eq_div_pow]
  fin_cases m <;> simp only <;> omega

theorem laneOf_extractLsb {P : Nat → Byte} {p : Vector Byte 32} (bytes : ∀ (j : Nat) (h : j < 32), p[j] = P j)
    (k : Fin 4) (m : Fin 8) : (laneOf p k).extractLsb' (8 * m.val) 8 = P (8 * k.val + m.val) := by
  simp only [laneOf, bytes]
  exact le64_extractLsb (fun i => P (8 * k.val + i)) m

/-- Committing a packet leaves what R99 says, whether or not the command has marked the state before it. -/
theorem commitPacket_noteUse_packetCommitted {P : Nat → Byte} {p : Vector Byte 32}
    (bytes : ∀ (j : Nat) (h : j < 32), p[j] = P j) (held : Bool) (s : State) :
    PacketCommitted P s (commitPacket p (noteUse held s)) where
  result := rfl
  lane k := ⟨laneOf p k, by simp, laneOf_extractLsb bytes k⟩
  packet i := by simp [bytes]
  kind := by simp [kindPacket]
  fault := by simp
  cause := by simp
  last := ⟨by simp, by simp, by simp, by simp⟩
  inputs := ⟨rfl, rfl, rfl, rfl, rfl, rfl, rfl⟩

/-- Settles O17: the matching `TLEN` lets the command commit its packet, which is the table's, byte by byte. -/
theorem hhPacketBuildsPacketAndLanes : Obligations.HhPacketBuildsPacketAndLanes := by
  unfold Obligations.HhPacketBuildsPacketAndLanes
  intro s n T D held matching written
  have bound : n < 32 := matching ▸ Nat.mod_lt _ (by decide)
  have accepted : n = remainderOf (tlenBits s) := by rw [tlenBits_of_some held, remainderOf_eq_mod, matching]
  have bytes (j : Nat) (inPacket : j < 32) : (buildPacket n (readInput n s))[j] = packetByte n D j := by
    rw [buildPacket_getElem bound, readInput_eq_map (Nat.le_of_lt bound) written,
      funext (byteAt_map_range n D), packetByte_padded D inPacket]
  refine ⟨_, execHhPacket_eq_next.2 (.inr ⟨accepted, rfl⟩), ?_⟩
  rw [noteInput, noteUse_noteUse]
  exact commitPacket_noteUse_packetCommitted bytes _ s

end Sys2Proof.Proofs
end

section
/-! PROOF. The fold of `MIR.TAIL` (42_mirhash.md R88): the shift empties the top byte of the accumulator, and the byte
ORed in there leaves the low 56 bits alone. -/

namespace Sys2Proof.Proofs
open Sys2Proof Sys2Proof.Machine Sys2Proof.Spec

/-- The byte folded in last is on top. -/
theorem foldByte_top (acc : Word64) (b : Byte) : (foldByte acc b).extractLsb' 56 8 = b := by
  have shiftedOut : (acc >>> 8).extractLsb' 56 8 = 0 := by
    ext k _
    have pastWord : 64 ≤ 8 + (56 + k) := by omega
    simp [BitVec.getLsbD_of_ge acc _ pastWord]
  have onTop : (b.setWidth 64 <<< 56).extractLsb' 56 8 = b := lane_setWidth_shiftLeft (i := 7) (by decide) 7 b
  rw [foldByte, BitVec.extractLsb'_or, shiftedOut, onTop]
  exact BitVec.zero_or

/-- What was folded before moves down one lane, and its lowest byte is lost. -/
theorem foldByte_low (acc : Word64) (b : Byte) : (foldByte acc b).extractLsb' 0 56 = acc.extractLsb' 8 56 := by
  ext k inLow
  simp [foldByte, inLow]

/-- One more byte at the end of the input is one more fold step. -/
theorem mirHashWord_append_singleton (bytes : List Byte) (b : Byte) :
    mirHashWord (bytes ++ [b]) = foldByte (mirHashWord bytes) b :=
  List.foldl_concat foldByte 0 b bytes

/-- Up to seven bytes `MIR.TAIL` commits the fold of `D 0 … D (n-1)`. -/
theorem exec_mirTail_commits {s : State} {n : Nat} {D : Nat → Byte} (short : n ≤ 7) (written : DataIs s n D) :
    ∃ t, exec (.mirTail n) s = .next t ∧ WordCommitted (mirHashWord ((List.range n).map D)) s t := by
  rw [← readInput_eq_map (by omega) written]
  exact ⟨_, execMirTail_eq_next.2 (.inr ⟨short, rfl⟩), commitWord_noteUse_wordCommitted _ _ s⟩

/-- Settles O22: the committed word is the fold, whose last step is `foldByte`. -/
theorem mirFoldStep : Obligations.MirFoldStep := by
  unfold Obligations.MirFoldStep
  refine ⟨?commits, rfl, ?step⟩
  case commits =>
    intro s n D short written
    obtain ⟨t, ran, committed⟩ := exec_mirTail_commits short written
    exact ⟨t, ran, committed.result⟩
  case step =>
    intro bytes b
    rw [mirHashWord_append_singleton]
    exact ⟨rfl, foldByte_top _ b, foldByte_low _ b⟩

end Sys2Proof.Proofs
end

section
/-! PROOF. `MUM.TAIL` on seven written bytes, the one length it accepts (43_mumhash.md R91–R93). -/

namespace Sys2Proof.Proofs
open Sys2Proof Sys2Proof.Machine Sys2Proof.Spec

theorem byteAt_map_range_of_lt {n j : Nat} (below : j < n) (D : Nat → Byte) : byteAt ((List.range n).map D) j = D j :=
  (byteAt_map_range n D j).trans (if_pos below)

/-- On seven bytes `MUM.TAIL` commits the combination of `D 0 … D 6`. -/
theorem exec_mumTail_commits {s : State} {D : Nat → Byte} (written : DataIs s 7 D) :
    ∃ t, exec (.mumTail 7) s = .next t ∧ WordCommitted (mumHashWord ((List.range 7).map D)) s t := by
  rw [← readInput_eq_map (by decide) written]
  exact ⟨_, execMumTail_eq_next.2 (.inr (.inr ⟨rfl, rfl⟩)), commitWord_noteUse_wordCommitted _ _ s⟩

/-- The low lane added to an accumulator of 0, then bytes 6, 5 and 4 ORed in, in that order (R92). -/
theorem mumHashWord_map_range (D : Nat → Byte) :
    mumHashWord ((List.range 7).map D) =
      (((0#64 + (le32 (D 0) (D 1) (D 2) (D 3)).setWidth 64) ||| ((D 6).setWidth 64 <<< 48)) |||
        ((D 5).setWidth 64 <<< 40)) ||| ((D 4).setWidth 64 <<< 32) := by
  rw [mumHashWord, orHighLanes, addLowLane]
  simp only [byteAt_map_range_of_lt, Nat.reduceLT, BitVec.ofNat_eq_ofNat]

/-- Settles O23: seven bytes are the accepted length, and the committed word adds the low lane before the ORs. -/
theorem mumTailAddsThenOrs : Obligations.MumTailAddsThenOrs := by
  unfold Obligations.MumTailAddsThenOrs
  intro s D written
  obtain ⟨t, ran, committed⟩ := exec_mumTail_commits written
  exact ⟨t, _, ran, committed, mumHashWord_map_range D⟩

end Sys2Proof.Proofs
end

section
/-! PROOF. What a command leaves, said by the kind of the command (44_host_interface.md R98, R99): a fault taken, or the
outputs of its own kind committed. -/

namespace Sys2Proof.Proofs
open Sys2Proof Sys2Proof.Machine Sys2Proof.Spec

/-- Only `HH.PACKET` commits a packet, and only the other commands commit a word. -/
theorem exec_outcome {i : Instr} {s t : State} (ran : exec i s = .next t) :
    (∃ c, FaultTaken (causeCode c) s t) ∨
    ((∀ n, i ≠ .hhPacket n) ∧ ∃ v, WordCommitted v s t) ∨
    ((∃ n, i = .hhPacket n) ∧ ∃ P, PacketCommitted P s t) := by
  cases i with
  | fhTail n =>
    rcases execFhTail_eq_next.1 ran with ⟨-, rfl⟩ | ⟨-, rfl⟩
    · exact .inl ⟨_, takeFault_faultTaken _ s⟩
    · exact .inr (.inl ⟨nofun, _, commitWord_noteUse_wordCommitted _ _ s⟩)
  | hhPacket n =>
    rcases execHhPacket_eq_next.1 ran with ⟨-, rfl⟩ | ⟨matching, rfl⟩
    · exact .inl ⟨_, takeFault_noteUse_faultTaken _ _ s⟩
    · have bound : n < 32 := matching ▸ remainderOf_lt _
      rw [noteInput, noteUse_noteUse]
      exact .inr (.inr ⟨⟨n, rfl⟩, _,
        commitPacket_noteUse_packetCommitted (fun _ => buildPacket_getElem bound (readInput n s)) _ s⟩)
  | mirTail n =>
    rcases execMirTail_eq_next.1 ran with ⟨-, rfl⟩ | ⟨-, rfl⟩
    · exact .inl ⟨_, takeFault_faultTaken _ s⟩
    · exact .inr (.inl ⟨nofun, _, commitWord_noteUse_wordCommitted _ _ s⟩)
  | mumTail n =>
    rcases execMumTail_eq_next.1 ran with ⟨-, rfl⟩ | ⟨-, rfl⟩ | ⟨-, rfl⟩
    · exact .inl ⟨_, takeFault_faultTaken _ s⟩
    · exact .inl ⟨_, takeFault_faultTaken _ s⟩
    · exact .inr (.inl ⟨nofun, _, commitWord_noteUse_wordCommitted _ _ s⟩)

/-- Settles O33: a fault taken would leave `FAULT = 1`, so the command has committed the outputs of its own kind. -/
theorem successCommitsItsOwnKind : Obligations.SuccessCommitsItsOwnKind := by
  unfold Obligations.SuccessCommitsItsOwnKind
  intro i s t ran _ noCause success
  rcases exec_outcome ran with ⟨c, faulted⟩ | ⟨notPacket, v, committed⟩ | ⟨⟨n, rfl⟩, P, committed⟩
  · exact absurd (success.symm.trans faulted.fault) (by decide)
  · refine ⟨committed.cause.trans noCause, committed.inputs.data, committed.inputs.tlen, ?packet, ?word⟩
    case packet => exact fun ⟨n, isPacket⟩ => absurd isPacket (notPacket n)
    case word => exact fun _ => ⟨committed.kind, by simp [committed.result], committed.lane, committed.packet⟩
  · refine ⟨committed.cause.trans noCause, committed.inputs.data, committed.inputs.tlen, ?packet, ?word⟩
    case packet =>
      refine fun _ => ⟨committed.kind, committed.result, fun k => ?_, fun p => by simp [committed.packet p]⟩
      obtain ⟨v, held, -⟩ := committed.lane k
      simp [held]
    case word => exact fun notPacket => absurd rfl (notPacket n)

theorem issueCommand_of_fault {s : State} (faulted : statusFault s.status = 1) (w : Word32) :
    issueCommand w s = .next s :=
  if_pos ((inFaultState_iff s).2 faulted)

theorem issueCommand_of_decode_ok {s : State} {w : Word32} {i : Instr} (running : statusFault s.status = 0)
    (decoded : decode w = .ok i) : issueCommand w s = exec i (acceptWord w s) := by
  simp [issueCommand, inFaultState, running, decoded]

/-- Settles O6: the access hands its word to `issueCommand`, and the state named is the one that has accepted it. -/
theorem commandWriteIsOneStep : Obligations.CommandWriteIsOneStep := by
  unfold Obligations.CommandWriteIsOneStep
  intro s w rest next
  rw [step_nextIsCommand next]
  refine ⟨fun faulted => issueCommand_of_fault (s := { s with pending := rest }) faulted w, fun running => ?_⟩
  refine ⟨_, acceptWord_wordAccepted w rest s, ?executes, ?leaves, ?illegalOp, ?reservedBits⟩
  case executes => exact fun i decoded => issueCommand_of_decode_ok running decoded
  case leaves =>
    intro i t _ ran
    rcases exec_outcome ran with ⟨c, faulted⟩ | ⟨-, word⟩ | ⟨-, packet⟩
    · exact .inl ⟨_, faulted⟩
    · exact .inr (.inl word)
    · exact .inr (.inr packet)
  case illegalOp =>
    exact fun undecoded => ⟨_, issueCommand_of_decode_error running undecoded, takeFault_faultTaken .illegalOp _⟩
  case reservedBits =>
    exact fun undecoded => ⟨_, issueCommand_of_decode_error running undecoded, takeFault_faultTaken .reservedBits _⟩

end Sys2Proof.Proofs
end

section
/-! PROOF. Host writes and the accesses without a step (44_host_interface.md R97, R103): what the step does with an
access, by what its `SEL` names (10_state.md R35). -/

namespace Sys2Proof.Proofs
open Sys2Proof Sys2Proof.Machine Sys2Proof.Spec

theorem regOf_ofNat_data (i : Fin 32) : regOf (BitVec.ofNat 7 i) = some (.data i) := by
  revert i
  decide

/-- The two reserved ranges of `SEL`. -/
theorem regOf_eq_none_iff (sel : Select) :
    regOf sel = none ↔ (0x28 ≤ sel.toNat ∧ sel.toNat < 0x40) ∨ 0x60 ≤ sel.toNat := by
  revert sel
  decide

/-- The two ranges of `SEL` that name the registers the host only reads. -/
theorem regOf_readOnly_cases {sel : Select}
    (readOnly : (0x22 ≤ sel.toNat ∧ sel.toNat < 0x28) ∨ (0x40 ≤ sel.toNat ∧ sel.toNat < 0x60)) :
    regOf sel = some .status ∨ regOf sel = some .result ∨ (∃ k, regOf sel = some (.lane k)) ∨
      ∃ i, regOf sel = some (.packet i) := by
  revert sel
  decide

theorem regOf_readOnly {sel : Select}
    (readOnly : (0x22 ≤ sel.toNat ∧ sel.toNat < 0x28) ∨ (0x40 ≤ sel.toNat ∧ sel.toNat < 0x60)) :
    ∃ r, regOf sel = some r ∧ ∀ v s, writeReg r v s = .refused (.writesReadOnly r) := by
  rcases regOf_readOnly_cases readOnly with named | named | ⟨k, named⟩ | ⟨i, named⟩
  · exact ⟨_, named, fun _ _ => rfl⟩
  · exact ⟨_, named, fun _ _ => rfl⟩
  · exact ⟨_, named, fun _ _ => rfl⟩
  · exact ⟨_, named, fun _ _ => rfl⟩

theorem step_read_of_unmapped {s : State} {sel : Select} {rest : List HostAccess}
    (next : NextAccessIs s (.read sel) rest) (unmapped : regOf sel = none) :
    step s = .refused (.reservedSelect sel) := by
  rw [step_cons next, performAccess, hostRead, unmapped]

theorem step_write_of_unmapped {s : State} {sel : Select} {v : Nat} {rest : List HostAccess}
    (next : NextAccessIs s (.write sel v) rest) (unmapped : regOf sel = none) :
    step s = .refused (.reservedSelect sel) := by
  rw [step_cons next, performAccess, hostWrite, unmapped]

/-- A write to a register: the width is checked before the register takes the value. -/
theorem step_write_of_mapped {s : State} {sel : Select} {r : Reg} {v : Nat} {rest : List HostAccess}
    (next : NextAccessIs s (.write sel v) rest) (mapped : regOf sel = some r) :
    step s = if 2 ^ widthOf r ≤ v then .refused (.valueTooWide r) else writeReg r v { s with pending := rest } := by
  rw [step_cons next, performAccess, hostWrite, mapped]

theorem step_write_of_fits {s : State} {sel : Select} {r : Reg} {v : Nat} {rest : List HostAccess}
    (next : NextAccessIs s (.write sel v) rest) (mapped : regOf sel = some r) (fits : v < 2 ^ widthOf r) :
    step s = writeReg r v { s with pending := rest } :=
  (step_write_of_mapped next mapped).trans (if_neg (Nat.not_le.2 fits))

theorem step_write_of_tooWide {s : State} {sel : Select} {r : Reg} {v : Nat} {rest : List HostAccess}
    (next : NextAccessIs s (.write sel v) rest) (mapped : regOf sel = some r) (tooWide : 2 ^ widthOf r ≤ v) :
    step s = .refused (.valueTooWide r) :=
  (step_write_of_mapped next mapped).trans (if_pos tooWide)

/-- Whatever the value, a write to a register the host only reads has no step. -/
theorem step_write_refused_of_readOnly {s : State} {sel : Select} {v : Nat} {rest : List HostAccess}
    (readOnly : (0x22 ≤ sel.toNat ∧ sel.toNat < 0x28) ∨ (0x40 ≤ sel.toNat ∧ sel.toNat < 0x60))
    (next : NextAccessIs s (.write sel v) rest) : ∃ r, step s = .refused r := by
  obtain ⟨r, mapped, refuses⟩ := regOf_readOnly readOnly
  rcases Nat.lt_or_ge v (2 ^ widthOf r) with fits | tooWide
  · exact ⟨_, (step_write_of_fits next mapped fits).trans (refuses _ _)⟩
  · exact ⟨_, step_write_of_tooWide next mapped tooWide⟩

/-- Settles O36: the value of a write is its register's width, so the register takes the whole of it. -/
theorem inputWritesChangeOneRegister : Obligations.InputWritesChangeOneRegister := by
  unfold Obligations.InputWritesChangeOneRegister
  refine ⟨?data, ?tlen, fun _ _ _ => step_nextIsCommand⟩
  case data =>
    intro s i b rest next
    refine ⟨_, step_write_of_fits next (regOf_ofNat_data i) b.isLt, ?written, ?others, rfl⟩
    case written => simp
    case others => exact fun j apart => Vector.getElem_set_ne i.isLt j.isLt (Fin.val_ne_of_ne apart.symm)
  case tlen =>
    intro s T rest next
    rw [step_write_of_fits next (by decide : regOf 0x20 = some .tlen) T.isLt, writeReg, BitVec.ofNat_toNat,
      BitVec.setWidth_eq]

/-- Settles O40: a reserved `SEL` names no register; a read-only register refuses every value; the three widths are
those of the registers the host may write. -/
theorem unmappedAccessesAreRefused : Obligations.UnmappedAccessesAreRefused := by
  unfold Obligations.UnmappedAccessesAreRefused
  intro s sel v rest
  refine ⟨fun reserved => ?unmapped, step_write_refused_of_readOnly, fun next => ⟨?data, ?tlen, ?cmd⟩⟩
  case unmapped =>
    have unmapped : regOf sel = none := (regOf_eq_none_iff sel).2 reserved
    exact ⟨fun next => ⟨_, step_read_of_unmapped next unmapped⟩,
      fun next => ⟨_, step_write_of_unmapped next unmapped⟩⟩
  case data => exact fun isData tooWide => ⟨_, step_write_of_tooWide next (dif_pos isData) tooWide⟩
  case tlen =>
    rintro rfl tooWide
    exact ⟨_, step_write_of_tooWide next (r := .tlen) (by decide) tooWide⟩
  case cmd =>
    rintro rfl tooWide
    exact ⟨_, step_write_of_tooWide next (r := .cmd) (by decide) tooWide⟩

end Sys2Proof.Proofs
end

section
/-! PROOF. Fault entry (60_exceptions.md R108–R111): the one fault that a command word raises, as a cause and not as a
code, and what the step of its `CMD` write then leaves. -/

namespace Sys2Proof.Proofs
open Sys2Proof Sys2Proof.Machine Sys2Proof.Spec

/-- The fault a command's own length contract raises, its checks in the order of R110; none where the length is legal. -/
def contractFault (tlen : Option Word64) : Instr → Option FaultCause
  | .fhTail n => if 8 ≤ n then some .lengthBound else none
  | .hhPacket n => if tlen.map (fun T => T.toNat % 32) ≠ some n then some .lengthMismatch else none
  | .mirTail n => if 8 ≤ n then some .lengthBound else none
  | .mumTail n => if 8 ≤ n then some .lengthBound else if n ≤ 6 then some .lengthUnsupported else none

/-- The fault a command word raises: its decoding error, else what its command's length contract raises. -/
def firstFault (w : Word32) (tlen : Option Word64) : Option FaultCause :=
  match decode w with
  | .error e => some (decodeCause e)
  | .ok i => contractFault tlen i

/-- `t` is what a step leaves of `s` as to faults: the fault taken, or `FAULT` and `CAUSE` as they were. -/
def FaultReported (fault : Option FaultCause) (s t : State) : Prop :=
  match fault with
  | some c => FaultTaken (causeCode c) s t
  | none => statusFault t.status = statusFault s.status ∧ statusCause t.status = statusCause s.status

theorem firstFault_of_error {w : Word32} {e : DecodeError} (undecoded : decode w = .error e) (tlen : Option Word64) :
    firstFault w tlen = some (decodeCause e) := by
  rw [firstFault, undecoded]

theorem firstFault_of_ok {w : Word32} {i : Instr} (decoded : decode w = .ok i) (tlen : Option Word64) :
    firstFault w tlen = contractFault tlen i := by
  rw [firstFault, decoded]

/-- No code of R108 is 0, the code of no fault. -/
theorem causeCode_ne_zero (c : FaultCause) : causeCode c ≠ 0 := by
  cases c <;> decide

/-- The code the order of R110 gives, read off the word's fields, is that of the fault the decoder and the contract
give. -/
theorem firstCause_eq_causeCode (w : Word32) (tlen : Option Word64) :
    firstCause w tlen = (firstFault w tlen).elim 0 causeCode := by
  have byFields : firstCause w tlen =
      if 4 ≤ (opField w).toNat then 1
      else if rsvField w ≠ 0 then 2
      else if (opField w).toNat ≠ 1 ∧ 8 ≤ (lenField w).toNat then 3
      else if (opField w).toNat = 3 ∧ (lenField w).toNat ≤ 6 then 5
      else if (opField w).toNat = 1 ∧ tlen.map (fun T => T.toNat % 32) ≠ some (lenField w).toNat then 4
      else 0 := rfl
  rw [byFields]
  rcases decode_cases w with ⟨reserved, undecoded⟩ | ⟨legal, set, undecoded⟩ | ⟨op, rsv, decoded⟩ |
    ⟨op, rsv, decoded⟩ | ⟨op, rsv, decoded⟩ | ⟨op, rsv, decoded⟩
  · rw [firstFault_of_error undecoded, if_pos reserved]
    rfl
  · rw [firstFault_of_error undecoded, if_neg (Nat.not_le.2 legal), if_pos set]
    rfl
  all_goals rw [firstFault_of_ok decoded, contractFault]
  · by_cases long : 8 ≤ (lenField w).toNat <;> simp [op, rsv, long, causeCode]
  · by_cases matching : tlen.map (fun T => T.toNat % 32) = some (lenField w).toNat <;>
      simp [op, rsv, matching, causeCode]
  · by_cases long : 8 ≤ (lenField w).toNat <;> simp [op, rsv, long, causeCode]
  · by_cases long : 8 ≤ (lenField w).toNat
    · simp [op, rsv, long, causeCode]
    · by_cases short : (lenField w).toNat ≤ 6 <;> simp [op, rsv, long, short, causeCode]

theorem fields_of_decode_hhPacket {w : Word32} {n : Nat} (decoded : decode w = .ok (.hhPacket n)) :
    opField w = 1 ∧ rsvField w = 0 := by
  rcases decode_cases w with ⟨-, other⟩ | ⟨-, -, other⟩ | ⟨-, -, other⟩ | ⟨op, rsv, -⟩ | ⟨-, -, other⟩ | ⟨-, -, other⟩
  case inr.inr.inr.inl => exact ⟨op, rsv⟩
  all_goals exact absurd (decoded.symm.trans other) nofun

/-- A command reports the fault of its length contract, where `TLEN` holds the value the contract reads. -/
theorem exec_faultReported {i : Instr} {s t : State} (held : ∀ n, i = .hhPacket n → s.tlen ≠ none)
    (ran : exec i s = .next t) : FaultReported (contractFault s.tlen i) s t := by
  cases i with
  | fhTail n =>
    rcases execFhTail_eq_next.1 ran with ⟨long, rfl⟩ | ⟨short, -⟩
    · rw [contractFault, if_pos (show 8 ≤ n from long)]
      exact takeFault_faultTaken _ s
    · rw [contractFault, if_neg (show ¬ 8 ≤ n by omega)]
      exact exec_keeps_fault_of_lengthLegal (i := .fhTail n) short ran
  | hhPacket n =>
    obtain ⟨T, holds⟩ := Option.ne_none_iff_exists'.1 (held n rfl)
    have checked : remainderOf (tlenBits s) = T.toNat % 32 := by rw [tlenBits_of_some holds, remainderOf_eq_mod]
    rcases execHhPacket_eq_next.1 ran with ⟨broken, rfl⟩ | ⟨matching, -⟩
    · rw [contractFault, holds, if_pos (by simpa [← checked] using broken.symm)]
      exact takeFault_noteUse_faultTaken _ _ s
    · rw [contractFault, holds, if_neg (by simp [← checked, matching])]
      exact exec_keeps_fault_of_lengthLegal (i := .hhPacket n) ⟨T, holds, matching.trans checked⟩ ran
  | mirTail n =>
    rcases execMirTail_eq_next.1 ran with ⟨long, rfl⟩ | ⟨short, -⟩
    · rw [contractFault, if_pos (show 8 ≤ n from long)]
      exact takeFault_faultTaken _ s
    · rw [contractFault, if_neg (show ¬ 8 ≤ n by omega)]
      exact exec_keeps_fault_of_lengthLegal (i := .mirTail n) short ran
  | mumTail n =>
    rcases execMumTail_eq_next.1 ran with ⟨long, rfl⟩ | ⟨short, rfl⟩ | ⟨rfl, -⟩
    · rw [contractFault, if_pos (show 8 ≤ n from long)]
      exact takeFault_faultTaken _ s
    · rw [contractFault, if_neg (show ¬ 8 ≤ n by omega), if_pos (Nat.le_of_lt_succ short)]
      exact takeFault_faultTaken _ s
    · exact exec_keeps_fault_of_lengthLegal (i := .mumTail 7) rfl ran

/-- The step of a `CMD` write outside the fault state reports the word's first fault, and no other. -/
theorem step_nextIsCommand_faultReported {s t : State} {w : Word32} {rest : List HostAccess}
    (next : NextIsCommand s w rest) (running : statusFault s.status = 0)
    (held : (w.extractLsb' 0 3).toNat = 1 → w.extractLsb' 8 24 = 0 → s.tlen ≠ none) (stepped : step s = .next t) :
    ∃ a, WordAccepted w rest s a ∧ FaultReported (firstFault w s.tlen) a t := by
  refine ⟨_, acceptWord_wordAccepted w rest s, ?_⟩
  rw [step_nextIsCommand next] at stepped
  rcases issueCommand_next_cases stepped with ⟨faulted, -⟩ | ⟨-, ⟨e, undecoded, rfl⟩ | ⟨i, decoded, ran⟩⟩
  · exact absurd (running.symm.trans faulted) (by decide)
  · rw [firstFault_of_error undecoded]
    exact takeFault_faultTaken _ _
  · rw [firstFault_of_ok decoded]
    refine exec_faultReported (fun n isPacket => ?_) ran
    obtain ⟨op, rsv⟩ := fields_of_decode_hhPacket (isPacket ▸ decoded)
    exact held (congrArg BitVec.toNat op) rsv

/-- Without a first fault the step leaves `FAULT` and `CAUSE` as they were before the word was accepted. -/
theorem faultFields_kept_of_faultReported_none {s a t : State} {w : Word32} {rest : List HostAccess}
    (accepted : WordAccepted w rest s a) (reported : FaultReported none a t) :
    statusFault t.status = statusFault s.status ∧ statusCause t.status = statusCause s.status := by
  obtain ⟨faultKept, causeKept⟩ := reported
  exact ⟨faultKept.trans accepted.fault, causeKept.trans accepted.cause⟩

/-- Settles O10: with a first fault the step takes it, and its code is not 0; without one `FAULT` and `CAUSE` stay 0. -/
theorem firstFaultInPriorityOrder : Obligations.FirstFaultInPriorityOrder := by
  unfold Obligations.FirstFaultInPriorityOrder
  intro s t w rest next running noCause held stepped
  obtain ⟨a, accepted, reported⟩ := step_nextIsCommand_faultReported next running held stepped
  rw [firstCause_eq_causeCode]
  generalize firstFault w s.tlen = fault at reported ⊢
  cases fault with
  | some c => exact ⟨iff_of_true reported.fault (reported.cause ▸ causeCode_ne_zero c), reported.cause⟩
  | none =>
    obtain ⟨faultKept, causeKept⟩ := faultFields_kept_of_faultReported_none accepted reported
    exact ⟨by simp [faultKept, running, causeKept, noCause], causeKept.trans noCause⟩

/-- Settles O32: only a fault taken raises `FAULT`, so the word has a first fault and the step has taken it. -/
theorem faultEntryWritesTheCause : Obligations.FaultEntryWritesTheCause := by
  unfold Obligations.FaultEntryWritesTheCause
  intro s t w rest next running held stepped faulted
  obtain ⟨a, accepted, reported⟩ := step_nextIsCommand_faultReported next running held stepped
  rw [firstCause_eq_causeCode]
  generalize firstFault w s.tlen = fault at reported ⊢
  cases fault with
  | some c => exact ⟨a, accepted, reported⟩
  | none =>
    obtain ⟨faultKept, -⟩ := faultFields_kept_of_faultReported_none accepted reported
    exact absurd ((faultKept.trans running).symm.trans faulted) (by decide)

end Sys2Proof.Proofs
end

section
/-! PROOF. `Reset` (70_reset_and_hazards.md R121): it is taken in every state, and no register it leaves depends on the
state it is taken in. -/

namespace Sys2Proof.Proofs
open Sys2Proof Sys2Proof.Machine Sys2Proof.Spec

/-- The reset registers are those of the first state, whatever the instance held before. -/
theorem resetRegisters_resetValues (s : State) : ResetValues (resetRegisters s) where
  data i := by rw [resetRegisters_data, Fin.getElem_fin, Vector.getElem_replicate]
  tlen := resetRegisters_tlen s
  cmd := resetRegisters_cmd s
  status := resetRegisters_status s
  outputs := noOutputs_of_replicate (resetRegisters_result s) (resetRegisters_lane s) (resetRegisters_packet s)

/-- No register is consulted, so a `Reset` is taken in the fault state too. -/
theorem step_reset {s : State} {rest : List HostAccess} (next : NextAccessIs s .reset rest) :
    step s = .next (resetRegisters { s with pending := rest }) := by
  rw [step_cons next, performAccess]

/-- Settles O42: the step takes the `Reset` off the list and goes to the reset registers. -/
theorem resetRestoresEveryRegister : Obligations.ResetRestoresEveryRegister :=
  fun _ _ next => ⟨_, step_reset next, resetRegisters_resetValues _, resetRegisters_pending _⟩

end Sys2Proof.Proofs
end

section
/-! PROOF. The command format on the decoder's side (30_encoding.md R57–R63, R68): the words that select a command, by
their fields and by mask and match. -/

namespace Sys2Proof.Proofs
open Sys2Proof Sys2Proof.Machine Sys2Proof.Spec

/-- The three fields tell words apart. -/
theorem word_ext_fields {u v : Word32} (op : opField u = opField v) (len : lenField u = lenField v)
    (rsv : rsvField u = rsvField v) : u = v := by
  rw [word_eq_fields u, word_eq_fields v, op, len, rsv]

/-- A word selects a command when its `OP` is the command's, its `LEN` the byte count and its `RSV` zero. -/
theorem decode_eq_ok_iff {w : Word32} {i : Instr} :
    decode w = .ok i ↔ opField w = opcodeOf i ∧ rsvField w = 0 ∧ i.len = (lenField w).toNat := by
  constructor
  · intro decoded
    rcases decode_cases w with ⟨-, other⟩ | ⟨-, -, other⟩ | ⟨op, rsv, selected⟩ | ⟨op, rsv, selected⟩ |
      ⟨op, rsv, selected⟩ | ⟨op, rsv, selected⟩
    · exact absurd (decoded.symm.trans other) nofun
    · exact absurd (decoded.symm.trans other) nofun
    all_goals
      obtain rfl := Except.ok.inj (decoded.symm.trans selected)
      exact ⟨op, rsv, rfl⟩
  · rintro ⟨op, rsv, len⟩
    simp only [decode, op, rsv, if_true, ← len]
    cases i <;> rfl

theorem wellFormed_of_decode {w : Word32} {i : Instr} (decoded : decode w = .ok i) : WellFormed i := by
  obtain ⟨-, -, len⟩ := decode_eq_ok_iff.1 decoded
  rw [wellFormed_iff, len]
  exact Nat.le_of_lt_succ (lenField w).isLt

theorem encode_of_decode {w : Word32} {i : Instr} (decoded : decode w = .ok i) : encode i = w := by
  obtain ⟨op, rsv, len⟩ := decode_eq_ok_iff.1 decoded
  obtain ⟨op', len', rsv'⟩ := fields_append (BitVec.ofNat 5 i.len) (opcodeOf i)
  refine word_ext_fields (op'.trans op.symm) (len'.trans ?_) (rsv'.trans rsv.symm)
  rw [len, BitVec.ofNat_toNat, BitVec.setWidth_eq]

/-- Settles O1: each field of the encoding is the one the decoder reads back. -/
theorem decodeInvertsEncode : Obligations.DecodeInvertsEncode :=
  fun _ => decode_encode

/-- Settles O2: the decoder has read all three fields, and they are those of the command's encoding. -/
theorem encodeInvertsDecode : Obligations.EncodeInvertsDecode :=
  fun _ _ decoded => ⟨wellFormed_of_decode decoded, encode_of_decode decoded⟩

/-- The mask `0xFFFFFF07` clears `LEN` and keeps the other two fields. -/
theorem masked_fields (w : Word32) :
    opField (w &&& 0xFFFFFF07) = opField w ∧ lenField (w &&& 0xFFFFFF07) = 0 ∧
      rsvField (w &&& 0xFFFFFF07) = rsvField w := by
  have maskFields : opField 0xFFFFFF07 = BitVec.allOnes 3 ∧ lenField 0xFFFFFF07 = 0 ∧
      rsvField 0xFFFFFF07 = BitVec.allOnes 24 := by decide
  obtain ⟨op, len, rsv⟩ := maskFields
  simp only [opField, lenField, rsvField, BitVec.extractLsb'_and] at op len rsv ⊢
  rw [op, len, rsv]
  exact ⟨BitVec.and_allOnes, BitVec.and_zero, BitVec.and_allOnes⟩

/-- Under the mask a word is an `OP` value alone when that is its `OP` field and its `RSV` is zero. -/
theorem masked_eq_iff (w : Word32) (op : BitVec 3) :
    w &&& 0xFFFFFF07 = 0#24 ++ 0#5 ++ op ↔ opField w = op ∧ rsvField w = 0 := by
  obtain ⟨keptOp, clearedLen, keptRsv⟩ := masked_fields w
  obtain ⟨opOnly, noLen, noRsv⟩ := fields_append 0 op
  constructor
  · intro matched
    rw [← keptOp, ← keptRsv, matched]
    exact ⟨opOnly, noRsv⟩
  · rintro ⟨isOp, rsv⟩
    exact word_ext_fields (keptOp.trans (isOp.trans opOnly.symm)) (clearedLen.trans noLen.symm)
      (keptRsv.trans (rsv.trans noRsv.symm))

/-- Mask, match and operand of a row. -/
theorem decode_eq_ok_iff_masked {i : Instr} {row : Word32} {op : BitVec 3} (isRow : row = 0#24 ++ 0#5 ++ op)
    (isOp : opcodeOf i = op) (w : Word32) :
    decode w = .ok i ↔ w &&& 0xFFFFFF07 = row ∧ i.len = (w.extractLsb' 3 5).toNat := by
  rw [isRow, masked_eq_iff, and_assoc, ← isOp]
  exact decode_eq_ok_iff

/-- The encoding string of a row. -/
theorem decode_append {i : Instr} {L : BitVec 5} (operand : i.len = L.toNat) :
    decode (0#24 ++ L ++ opcodeOf i) = .ok i := by
  obtain ⟨op, len, rsv⟩ := fields_append L (opcodeOf i)
  exact decode_eq_ok_iff.2 ⟨op, rsv, by rw [len, operand]⟩

/-- Settles O3: row by row the mask and match are those of `decode_eq_ok_iff_masked`, and a selected word has no
reserved bit set. -/
theorem maskAndMatchSelectTheCommand : Obligations.MaskAndMatchSelectTheCommand := by
  refine ⟨fun w n => ?rows, fun w i set decoded => ?reserved, fun L => ?strings⟩
  case rows =>
    exact ⟨decode_eq_ok_iff_masked (op := 0) (by decide) rfl w, decode_eq_ok_iff_masked (op := 1) (by decide) rfl w,
      decode_eq_ok_iff_masked (op := 2) (by decide) rfl w, decode_eq_ok_iff_masked (op := 3) (by decide) rfl w⟩
  case reserved =>
    obtain ⟨-, rsv, -⟩ := decode_eq_ok_iff.1 decoded
    exact set rsv
  case strings =>
    exact ⟨decode_append (i := .fhTail _) rfl, decode_append (i := .hhPacket _) rfl,
      decode_append (i := .mirTail _) rfl, decode_append (i := .mumTail _) rfl⟩

theorem decode_eq_illegalOp_iff (w : Word32) : decode w = .error .illegalOp ↔ 4 ≤ (opField w).toNat := by
  refine ⟨fun undecoded => ?_, decode_illegalOp_of_ge⟩
  rcases decode_cases w with ⟨reserved, -⟩ | ⟨-, -, other⟩ | ⟨-, -, other⟩ | ⟨-, -, other⟩ | ⟨-, -, other⟩ |
    ⟨-, -, other⟩
  · exact reserved
  all_goals exact absurd (undecoded.symm.trans other) nofun

theorem decode_eq_reservedBits_iff (w : Word32) :
    decode w = .error .reservedBits ↔ (opField w).toNat < 4 ∧ rsvField w ≠ 0 := by
  refine ⟨fun undecoded => ?_, fun ⟨legal, set⟩ => decode_reservedBits_of_ne legal set⟩
  rcases decode_cases w with ⟨-, other⟩ | ⟨legal, set, -⟩ | ⟨-, -, other⟩ | ⟨-, -, other⟩ | ⟨-, -, other⟩ |
    ⟨-, -, other⟩
  case inr.inl => exact ⟨legal, set⟩
  all_goals exact absurd (undecoded.symm.trans other) nofun

theorem opcodeOf_lt (i : Instr) : (opcodeOf i).toNat < 4 := by
  cases i <;> simp [opcodeOf]

theorem exists_decode_eq_ok_iff (w : Word32) : (∃ i, decode w = .ok i) ↔ (opField w).toNat < 4 ∧ rsvField w = 0 := by
  constructor
  · rintro ⟨i, decoded⟩
    obtain ⟨op, rsv, -⟩ := decode_eq_ok_iff.1 decoded
    exact ⟨op ▸ opcodeOf_lt i, rsv⟩
  · rintro ⟨legal, rsv⟩
    rcases decode_cases w with ⟨reserved, -⟩ | ⟨-, set, -⟩ | ⟨-, -, decoded⟩ | ⟨-, -, decoded⟩ | ⟨-, -, decoded⟩ |
      ⟨-, -, decoded⟩
    · exact absurd legal (Nat.not_lt.2 reserved)
    · exact absurd rsv set
    all_goals exact ⟨_, decoded⟩

/-- Settles O4: one condition for each of the two errors, and one for a command. -/
theorem decodingIsTotalByName : Obligations.DecodingIsTotalByName :=
  fun w => ⟨decode_eq_illegalOp_iff w, decode_eq_reservedBits_iff w, exists_decode_eq_ok_iff w⟩

/-- Settles O5: nine closed words. -/
theorem encodingExamplesDecode : Obligations.EncodingExamplesDecode := by
  unfold Obligations.EncodingExamplesDecode
  decide

/-- A command's line is the `CMD` write of `8 * n + OP`. -/
theorem assemble_command_eq_write {i : Instr} (bound : i.len ≤ 31) :
    assemble (.command i) = some [.write 0x21 (8 * i.len + (opcodeOf i).toNat)] := by
  have fits : WellFormed i := (wellFormed_iff i).2 bound
  have opBound := opcodeOf_lt i
  rw [assemble_command fits, commandAccess, encode_eq_ofNat fits, BitVec.toNat_ofNat, Nat.mod_eq_of_lt (by omega)]
  rfl

theorem assemble_command_of_not_fits {i : Instr} (long : 31 < i.len) : assemble (.command i) = none :=
  if_neg fun fits => Nat.not_le.2 long ((wellFormed_iff i).1 fits)

/-- Settles O56: a `SEL` is below 128, so `wr` and `rd` take every one. -/
theorem assemblerLines : Obligations.AssemblerLines := by
  refine ⟨fun n bound => ?commands, fun i => assemble_command_of_not_fits, fun sel v => ?accesses, rfl⟩
  case commands =>
    exact ⟨assemble_command_eq_write (i := .fhTail n) bound, assemble_command_eq_write (i := .hhPacket n) bound,
      assemble_command_eq_write (i := .mirTail n) bound, assemble_command_eq_write (i := .mumTail n) bound⟩
  case accesses =>
    rw [assemble_wr sel.isLt, assemble_rd sel.isLt, BitVec.ofNat_toNat, BitVec.setWidth_eq]
    exact ⟨rfl, rfl⟩

end Sys2Proof.Proofs
end

section
/-! PROOF. A 64-bit word by its lanes: its eight bytes determine it (00_scope.md R12), and their little-endian sum is its
value. -/

namespace Sys2Proof.Proofs
open Sys2Proof Sys2Proof.Machine Sys2Proof.Spec

/-- Two words with the same eight lanes are equal. -/
theorem word_ext_lanes {u v : Word64} (lanes : ∀ j, j < 8 → u.extractLsb' (8 * j) 8 = v.extractLsb' (8 * j) 8) : u = v := by
  refine BitVec.eq_of_getLsbD_eq fun k inWord => ?_
  have sameLane := congrArg (·.getLsbD (k % 8)) (lanes (k / 8) (by omega))
  simpa [Nat.mod_lt, Nat.div_add_mod] using sameLane

theorem eq_le64_of_lanes {v : Word64} (b : Nat → Byte) (lanes : ∀ j, j < 8 → v.extractLsb' (8 * j) 8 = b j) :
    v = le64 (b 0) (b 1) (b 2) (b 3) (b 4) (b 5) (b 6) (b 7) :=
  word_ext_lanes fun j inWord => (lanes j inWord).trans (le64_extractLsb b ⟨j, inWord⟩).symm

theorem le64_toNat_eq_sumLE (b : Nat → Byte) :
    (le64 (b 0) (b 1) (b 2) (b 3) (b 4) (b 5) (b 6) (b 7)).toNat = sumLE 8 b := by
  simp [le64_toNat, sumLE, Finset.sum_range_succ]

/-- The zero bytes of the padding add nothing. -/
theorem sumLE_padded {n : Nat} (short : n ≤ 8) (D : Nat → Byte) : sumLE 8 (padded n D) = sumLE n D := by
  unfold sumLE
  rw [← Finset.sum_subset (Finset.range_subset_range.2 short)]
  · exact Finset.sum_congr rfl fun i below => by rw [padded, if_pos (Finset.mem_range.1 below)]
  · intro i _ past
    rw [padded, if_neg (mt Finset.mem_range.2 past)]
    exact Nat.zero_mul _

/-- The zero bytes below the raised ones add nothing. -/
theorem sumLE_raised {n : Nat} (short : n ≤ 8) (D : Nat → Byte) :
    sumLE 8 (raised n D) = ∑ i ∈ Finset.range n, (D i).toNat * 2 ^ (8 * (8 - n + i)) := by
  have places : Finset.range 8 = Finset.range (8 - n + n) := by rw [Nat.sub_add_cancel short]
  rw [sumLE, places, Finset.sum_range_add, Finset.sum_eq_zero, Nat.zero_add]
  · exact Finset.sum_congr rfl fun i _ => by simp [raised]
  · intro i below
    rw [raised, if_neg (Nat.not_le.2 (Finset.mem_range.1 below))]
    exact Nat.zero_mul _

end Sys2Proof.Proofs
end

section
/-! PROOF. The lanes of `FH.TAIL` as one number (40_fasthash.md R71, R73). -/

namespace Sys2Proof.Proofs
open Sys2Proof Sys2Proof.Machine Sys2Proof.Spec

theorem fastHashWord_map_range {n : Nat} (short : n ≤ 8) (D : Nat → Byte) :
    fastHashWord ((List.range n).map D) = le64 (padded n D 0) (padded n D 1) (padded n D 2) (padded n D 3)
      (padded n D 4) (padded n D 5) (padded n D 6) (padded n D 7) :=
  eq_le64_of_lanes (padded n D) fun j _ => fastHashWord_map_range_lane short D j

theorem fastHashWord_map_range_toNat {n : Nat} (short : n ≤ 8) (D : Nat → Byte) :
    (fastHashWord ((List.range n).map D)).toNat = sumLE n D := by
  rw [fastHashWord_map_range short, le64_toNat_eq_sumLE, sumLE_padded short]

/-- Settles O15: the word is `LE64` of its lanes, the padded bytes, and the padding adds nothing to the sum. -/
theorem fhTailPacksLittleEndian : Obligations.FhTailPacksLittleEndian := by
  unfold Obligations.FhTailPacksLittleEndian
  intro s n D short written
  obtain ⟨t, ran, committed⟩ := exec_fhTail_commits short written
  have fits : n ≤ 8 := Nat.le_succ_of_le short
  exact ⟨t, _, ran, committed, fastHashWord_map_range_toNat fits D, fastHashWord_map_range fits D⟩

/-- A word below bit `k` shares no bit with one shifted up by `k`. -/
theorem and_shiftLeft_eq_zero_of_lt {v : Word64} {k : Nat} (below : v.toNat < 2 ^ k) (x : Word64) :
    v &&& (x <<< k) = 0 := by
  refine BitVec.eq_of_getLsbD_eq fun m inWord => ?_
  rcases Nat.lt_or_ge m k with low | high
  · simp [low]
  · have clear : v.getLsbD m = false :=
      Nat.testBit_lt_two_pow (Nat.lt_of_lt_of_le below (Nat.pow_le_pow_right Nat.two_pos high))
    simp [clear]

/-- Lane `i` keeps a word that lies below it below the next lane. -/
theorem xor_lane_toNat_lt {v : Word64} {i : Nat} (inWord : i < 8) (below : v.toNat < 2 ^ (8 * i)) (b : Byte) :
    (v ^^^ (b.setWidth 64 <<< (8 * i))).toNat < 2 ^ (8 * (i + 1)) := by
  rw [BitVec.toNat_xor, toNat_setWidth_shiftLeft_of_byte b (by omega)]
  refine Nat.xor_lt_two_pow (Nat.lt_of_lt_of_le below (Nat.pow_le_pow_right Nat.two_pos (by omega))) ?_
  calc b.toNat * 2 ^ (8 * i) < 2 ^ 8 * 2 ^ (8 * i) := Nat.mul_lt_mul_of_pos_right b.isLt (Nat.two_pow_pos _)
    _ = 2 ^ (8 * (i + 1)) := by rw [← Nat.pow_add, Nat.mul_add, Nat.add_comm]

/-- Any combiner that is XOR on words without a common bit gives the loop's word: each lane lies above those before it. -/
theorem placeLanes_eq_foldl {combine : Word64 → Word64 → Word64}
    (agrees : ∀ v x : Word64, v &&& x = 0 → combine v x = v ^^^ x) {i : Nat} {v : Word64} {bytes : List Byte}
    (short : i + bytes.length ≤ 8) (below : v.toNat < 2 ^ (8 * i)) :
    placeLanes i v bytes =
      ((bytes.zipIdx i).map fun b => (b.1.setWidth 64 : Word64) <<< (8 * b.2)).foldl combine v := by
  induction bytes generalizing i v with
  | nil => rfl
  | cons b rest ih =>
    rw [List.length_cons] at short
    rw [placeLanes, List.zipIdx_cons, List.map_cons, List.foldl_cons, agrees _ _ (and_shiftLeft_eq_zero_of_lt below _)]
    exact ih (by omega) (xor_lane_toNat_lt (by omega) below b)

theorem or_eq_xor_of_and_eq_zero {v x : Word64} (disjoint : v &&& x = 0) : v ||| x = v ^^^ x := by
  refine BitVec.eq_of_getLsbD_eq fun k _ => ?_
  have bit := congrArg (·.getLsbD k) disjoint
  simp only [BitVec.getLsbD_and, BitVec.getLsbD_zero, BitVec.ofNat_eq_ofNat] at bit
  rw [BitVec.getLsbD_or, BitVec.getLsbD_xor]
  generalize v.getLsbD k = p at bit
  generalize x.getLsbD k = q at bit
  revert p q
  decide

theorem add_eq_xor_of_and_eq_zero {v x : Word64} (disjoint : v &&& x = 0) : v + x = v ^^^ x :=
  (BitVec.add_eq_or_of_and_eq_zero v x disjoint).trans (or_eq_xor_of_and_eq_zero disjoint)

theorem fastHashWord_eq_foldl {combine : Word64 → Word64 → Word64}
    (agrees : ∀ v x : Word64, v &&& x = 0 → combine v x = v ^^^ x) {bytes : List Byte} (short : bytes.length ≤ 8) :
    fastHashWord bytes = (bytes.zipIdx.map fun b => (b.1.setWidth 64 : Word64) <<< (8 * b.2)).foldl combine 0 :=
  placeLanes_eq_foldl agrees (by omega) (by decide)

/-- The lanes of the bytes `D 0 … D (n-1)`. -/
theorem lanes_map_range (n : Nat) (D : Nat → Byte) :
    (((List.range n).map D).zipIdx.map fun b => (b.1.setWidth 64 : Word64) <<< (8 * b.2)) =
      (List.range n).map fun i => ((D i).setWidth 64 : Word64) <<< (8 * i) :=
  List.ext_getElem (by simp) fun i _ _ => by simp

/-- Settles O16: the command's loop is the fold of XOR; OR and addition agree with XOR lane after lane. -/
theorem laneCombinersAgree : Obligations.LaneCombinersAgree := by
  unfold Obligations.LaneCombinersAgree
  refine ⟨fun s n D short written => ?commits, fun bytes short => ?combiners⟩
  case commits =>
    obtain ⟨t, ran, committed⟩ := exec_fhTail_commits short written
    refine ⟨t, ran, ?_⟩
    rw [committed.result, fastHashWord_eq_foldl (fun _ _ _ => rfl) (by simp; omega), lanes_map_range]
  case combiners =>
    exact ⟨fastHashWord_eq_foldl (fun _ _ _ => rfl) short,
      fastHashWord_eq_foldl (fun _ _ => or_eq_xor_of_and_eq_zero) short,
      fastHashWord_eq_foldl (fun _ _ => add_eq_xor_of_and_eq_zero) short⟩

end Sys2Proof.Proofs
end

section
/-! PROOF. The fold of `MIR.TAIL` lane by lane (42_mirhash.md R89): each step moves every lane down by one, so the bytes end
in the top lanes, in order. -/

namespace Sys2Proof.Proofs
open Sys2Proof Sys2Proof.Machine Sys2Proof.Spec

/-- Below the top lane a fold step moves each lane down by one. -/
theorem foldByte_lane_of_lt {j : Nat} (belowTop : j < 7) (acc : Word64) (b : Byte) :
    (foldByte acc b).extractLsb' (8 * j) 8 = acc.extractLsb' (8 * (j + 1)) 8 := by
  ext k hk
  have inLow : 8 * j + k < 56 := by omega
  simp [foldByte, inLow, Nat.mul_add, Nat.add_assoc, Nat.add_left_comm]

/-- The `n` bytes folded stand in the top `n` lanes, in order. -/
theorem mirHashWord_lane {bytes : List Byte} (short : bytes.length ≤ 8) {j : Nat} (inWord : j < 8) :
    (mirHashWord bytes).extractLsb' (8 * j) 8 = raised bytes.length (byteAt bytes) j := by
  induction bytes using List.reverseRecOn generalizing j with
  | nil => simp [mirHashWord, raised]
  | append_singleton bytes b ih =>
    rw [List.length_append, List.length_singleton] at short ⊢
    rw [mirHashWord_append_singleton, raised]
    rcases Nat.lt_or_ge j 7 with belowTop | top
    · rw [foldByte_lane_of_lt belowTop, ih (by omega) (by omega), raised]
      by_cases written : 8 - (bytes.length + 1) ≤ j
      · rw [if_pos written, if_pos (by omega), byteAt_append_left (by omega)]
        congr 1
        omega
      · rw [if_neg written, if_neg (by omega)]
    · obtain rfl : j = 7 := by omega
      have last : 7 - (8 - (bytes.length + 1)) = bytes.length := by omega
      rw [if_pos (by omega), last, byteAt_append_self]
      exact foldByte_top _ b

theorem mirHashWord_map_range_lane {n : Nat} (short : n ≤ 8) (D : Nat → Byte) {j : Nat} (inWord : j < 8) :
    (mirHashWord ((List.range n).map D)).extractLsb' (8 * j) 8 = raised n D j := by
  rw [mirHashWord_lane (by simpa using short) inWord, List.length_map, List.length_range, raised, raised]
  by_cases written : 8 - n ≤ j
  · rw [if_pos written, if_pos written, byteAt_map_range, padded, if_pos (by omega)]
  · rw [if_neg written, if_neg written]

/-- Raising by `8 - n` lanes is a shift of the little-endian number. -/
theorem eq_shiftLeft_of_toNat {n : Nat} {D : Nat → Byte} {v : Word64}
    (value : v.toNat = ∑ i ∈ Finset.range n, (D i).toNat * 2 ^ (8 * (8 - n + i))) :
    v = BitVec.ofNat 64 (sumLE n D) <<< (8 * (8 - n)) := by
  have factored : v.toNat = sumLE n D * 2 ^ (8 * (8 - n)) := by
    rw [value, sumLE, Finset.sum_mul]
    refine Finset.sum_congr rfl fun i _ => ?_
    rw [Nat.mul_add, Nat.pow_add, Nat.mul_comm (2 ^ _), Nat.mul_assoc]
  apply BitVec.eq_of_toNat_eq
  rw [BitVec.toNat_shiftLeft, BitVec.toNat_ofNat, Nat.shiftLeft_eq, Nat.mod_mul_mod, ← factored,
    Nat.mod_eq_of_lt v.isLt]

/-- Settles O21: the lanes of the fold are those of the raised bytes, which give its `LE64`, its value and its shift. -/
theorem mirTailFoldsToTheTop : Obligations.MirTailFoldsToTheTop := by
  unfold Obligations.MirTailFoldsToTheTop
  intro s n D short written
  obtain ⟨t, ran, committed⟩ := exec_mirTail_commits short written
  have fits : n ≤ 8 := Nat.le_succ_of_le short
  have lane (j : Nat) (inWord : j < 8) := mirHashWord_map_range_lane fits D inWord
  have packed := eq_le64_of_lanes (raised n D) lane
  have value := (congrArg BitVec.toNat packed).trans ((le64_toNat_eq_sumLE (raised n D)).trans (sumLE_raised fits D))
  refine ⟨t, _, ran, committed, value, fun i below => ?byte, packed, eq_shiftLeft_of_toNat value⟩
  case byte => rw [lane _ (by omega), raised, if_pos (Nat.le_add_right _ _), Nat.add_sub_cancel_left]

end Sys2Proof.Proofs
end

section
/-! PROOF. `MUM.TAIL` and `FH.TAIL` on seven bytes (43_mumhash.md R94, R95): the same lanes, placed by an addition and three
ORs. -/

namespace Sys2Proof.Proofs
open Sys2Proof Sys2Proof.Machine Sys2Proof.Spec

/-- The 32-bit low lane holds the first four bytes and reaches no lane above them. -/
theorem le32_setWidth_lane (b : Nat → Byte) {j : Nat} (inWord : j < 8) :
    ((le32 (b 0) (b 1) (b 2) (b 3)).setWidth 64).extractLsb' (8 * j) 8 = if j < 4 then b j else 0 := by
  apply BitVec.eq_of_toNat_eq
  rw [BitVec.extractLsb'_toNat, BitVec.toNat_setWidth_of_le (by decide), le32_toNat, Nat.shiftRight_eq_div_pow]
  interval_cases j <;> simp <;> omega

/-- On seven bytes the addition and the ORs give each byte its own lane. -/
theorem mumHashWord_lane {bytes : List Byte} (seven : bytes.length = 7) {j : Nat} (inWord : j < 8) :
    (mumHashWord bytes).extractLsb' (8 * j) 8 = byteAt bytes j := by
  have low := le32_setWidth_lane (byteAt bytes) inWord
  have high {i : Nat} (placed : i < 8) := lane_setWidth_shiftLeft placed j (byteAt bytes i)
  have noByte : byteAt bytes 7 = 0 := by simp [byteAt, seven]
  rw [mumHashWord, orHighLanes, addLowLane]
  simp only [BitVec.extractLsb'_or, BitVec.ofNat_eq_ofNat, BitVec.zero_add, low, high (i := 4) (by decide),
    high (i := 5) (by decide), high (i := 6) (by decide)]
  interval_cases j <;> simp [noByte]

theorem mumHashWord_eq_fastHashWord {bytes : List Byte} (seven : bytes.length = 7) :
    mumHashWord bytes = fastHashWord bytes :=
  word_ext_lanes fun j inWord => (mumHashWord_lane seven inWord).trans (fastHashWord_lane (by omega) j).symm

theorem mumHashWord_map_range_toNat (D : Nat → Byte) : (mumHashWord ((List.range 7).map D)).toNat = sumLE 7 D := by
  rw [mumHashWord_eq_fastHashWord (by simp), fastHashWord_map_range_toNat (by decide)]

/-- The low 32 bits of the little-endian number of seven bytes are that of the first four. -/
theorem extractLsb_eq_le32_of_toNat {D : Nat → Byte} {v : Word64} (value : v.toNat = sumLE 7 D) :
    v.extractLsb' 0 32 = le32 (D 0) (D 1) (D 2) (D 3) := by
  simp only [sumLE, Finset.sum_range_succ, Finset.sum_range_zero] at value
  apply BitVec.eq_of_toNat_eq
  rw [BitVec.extractLsb'_toNat, Nat.shiftRight_zero, le32_toNat]
  omega

/-- Settles O24: the value is the sum of the seven bytes at their places; above the low lane the lanes are single bytes. -/
theorem mumTailLanesTakeNoCarry : Obligations.MumTailLanesTakeNoCarry := by
  unfold Obligations.MumTailLanesTakeNoCarry
  intro s D written
  obtain ⟨t, ran, committed⟩ := exec_mumTail_commits written
  have value := mumHashWord_map_range_toNat D
  have lane {j : Nat} (inWord : j < 8) :
      (mumHashWord ((List.range 7).map D)).extractLsb' (8 * j) 8 = padded 7 D j := by
    rw [mumHashWord_lane (by simp) inWord, byteAt_map_range]
  exact ⟨t, _, ran, committed, extractLsb_eq_le32_of_toNat value, lane (j := 4) (by decide), lane (j := 5) (by decide),
    lane (j := 6) (by decide), lane (j := 7) (by decide), value⟩

theorem exec_mumTail_seven_eq_fhTail (s : State) : exec (.mumTail 7) s = exec (.fhTail 7) s := by
  have combined : exec (.mumTail 7) s = .next (commitWord (mumHashWord (readInput 7 s)) (noteInput 7 s)) :=
    execMumTail_eq_next.2 (.inr (.inr ⟨rfl, rfl⟩))
  have packed : exec (.fhTail 7) s = .next (commitWord (fastHashWord (readInput 7 s)) (noteInput 7 s)) :=
    execFhTail_eq_next.2 (.inr ⟨Nat.le_refl 7, rfl⟩)
  rw [combined, packed, mumHashWord_eq_fastHashWord (readInput_length 7 s)]

/-- Settles O25: both commands commit the word of the seven bytes; below seven the two length contracts differ. -/
theorem mumTailEqualsFhTailOnSevenBytes : Obligations.MumTailEqualsFhTailOnSevenBytes := by
  unfold Obligations.MumTailEqualsFhTailOnSevenBytes
  refine ⟨exec_mumTail_seven_eq_fhTail, fun s D written => ?value, fun s n D short written running => ?shorter⟩
  case value =>
    obtain ⟨t, ran, committed⟩ := exec_mumTail_commits written
    exact ⟨t, _, ran, committed.result, mumHashWord_map_range_toNat D⟩
  case shorter =>
    obtain ⟨u, ran, committed⟩ := exec_fhTail_commits (Nat.le_of_lt short) written
    exact ⟨_, u, execMumTail_eq_next.2 (.inr (.inl ⟨short, rfl⟩)), (takeFault_faultTaken .lengthUnsupported s).fault,
      ran, committed.fault.trans running⟩

end Sys2Proof.Proofs
end

section
/-! PROOF. The bytes of a packet against the input (41_highwayhash.md R83, R84). -/

namespace Sys2Proof.Proofs
open Sys2Proof Sys2Proof.Machine Sys2Proof.Spec

/-- With 16 bytes or more, a byte the copy has placed from the last four is read again by the window. -/
theorem packetByte_reread {n : Nat} (long : 16 ≤ n) (bound : n < 32) (D : Nat → Byte) {j : Nat} (overlap : j < 4 - n % 4) :
    packetByte n D (n - 4 + j) = D (n - 4 + j) ∧ packetByte n D (28 + j) = D (n - 4 + j) := by
  have copied : n - 4 + j < 4 * (n / 4) := by omega
  have pastCopy : ¬ 28 + j < 4 * (n / 4) := by omega
  simp [packetByte, long, copied, pastCopy]

theorem packetByte_gap {n : Nat} (long : 16 ≤ n) (D : Nat → Byte) {j : Nat} (pastCopy : 4 * (n / 4) ≤ j)
    (beforeWindow : j < 28) : packetByte n D j = 0 := by
  simp [packetByte, long, Nat.not_lt.2 pastCopy, Nat.not_le.2 beforeWindow]

/-- Settles O19: copy and window both place the byte `D (n - 4 + j)`, and nothing is written between them. -/
theorem windowRereadsCopiedBytes : Obligations.WindowRereadsCopiedBytes := by
  unfold Obligations.WindowRereadsCopiedBytes
  intro s n T D held matching long written
  obtain ⟨t, ran, committed⟩ := hhPacketBuildsPacketAndLanes s n T D held matching written
  have bound : n < 32 := matching ▸ Nat.mod_lt _ (by decide)
  have packet (j : Nat) (inPacket : j < 32) : t.packet[j]? = some (some (packetByte n D j)) :=
    Vector.getElem?_eq_some_iff.2 ⟨inPacket, committed.packet ⟨j, inPacket⟩⟩
  refine ⟨t, ran, committed.fault, fun j overlap => ?twice, fun j pastCopy beforeWindow => ?gap⟩
  case twice =>
    obtain ⟨copied, reread⟩ := packetByte_reread long bound D overlap
    rw [packet _ (by omega), packet _ (by omega), copied, reread]
    exact ⟨rfl, rfl⟩
  case gap => rw [committed.packet j, packetByte_gap long D pastCopy beforeWindow]

/-- The table places nothing but bytes of the tail region and zeros. -/
theorem packetByte_eq_zero_or_input (n : Nat) (D : Nat → Byte) {j : Nat} (inPacket : j < 32) :
    packetByte n D j = 0 ∨ ∃ i, i < n ∧ packetByte n D j = D i := by
  unfold packetByte
  split_ifs
  · exact .inr ⟨j, by omega, rfl⟩
  · exact .inr ⟨n - 4 + (j - 28), by omega, rfl⟩
  · exact .inl rfl
  · exact .inl rfl
  · exact .inr ⟨4 * (n / 4), by omega, rfl⟩
  · exact .inr ⟨4 * (n / 4) + n % 4 / 2, by omega, rfl⟩
  · exact .inr ⟨n - 1, by omega, rfl⟩
  · exact .inl rfl

/-- Settles O20: without a fault the command has committed the table's packet over the bits it has read. -/
theorem packetHoldsOnlyInputBytesAndZeros : Obligations.PacketHoldsOnlyInputBytesAndZeros := by
  unfold Obligations.PacketHoldsOnlyInputBytesAndZeros
  intro s t n ran _ success i
  rcases execHhPacket_eq_next.1 ran with ⟨-, rfl⟩ | ⟨matching, rfl⟩
  · exact absurd (success.symm.trans (takeFault_noteUse_faultTaken .lengthMismatch _ s).fault) (by decide)
  · have bound : n < 32 := matching ▸ remainderOf_lt _
    rw [commitPacket_packet, Fin.getElem_fin, Vector.getElem_ofFn, Fin.getElem_fin, buildPacket_getElem bound]
    rcases packetByte_eq_zero_or_input n (byteAt (readInput n s)) i.isLt with zero | ⟨j, below, copied⟩
    · exact .inl (congrArg some zero)
    · exact .inr ⟨j, below, by rw [copied, byteAt_readInput below]⟩

end Sys2Proof.Proofs
end

section
/-! PROOF. A command as a function of what it reads (10_state.md R19, R38): a length check, then a fault or an output, which
is all that the state it ends in depends on. -/

namespace Sys2Proof.Proofs
open Sys2Proof Sys2Proof.Machine Sys2Proof.Spec

/-- What a command ends with. -/
inductive Effect where
  | fault (c : FaultCause)
  | word (v : Word64)
  | packet (p : Vector Byte 32)

/-- The state an effect leaves. -/
def Effect.apply : Effect → State → State
  | .fault c => takeFault c
  | .word v => commitWord v
  | .packet p => commitPacket p

/-- The command's length contract holds (30_encoding.md R64), `remainder` being `TLEN[4:0]`. -/
def lengthPasses (remainder : Nat) : Instr → Bool
  | .fhTail n => n ≤ 7
  | .hhPacket n => n = remainder
  | .mirTail n => n ≤ 7
  | .mumTail n => n = 7

/-- The fault of a command whose length contract is broken. -/
def lengthFault : Instr → FaultCause
  | .fhTail _ => .lengthBound
  | .hhPacket _ => .lengthMismatch
  | .mirTail _ => .lengthBound
  | .mumTail n => if 7 < n then .lengthBound else .lengthUnsupported

/-- The output of a command from its input bytes. -/
def outputOf (bytes : List Byte) : Instr → Effect
  | .fhTail _ => .word (fastHashWord bytes)
  | .hhPacket n => .packet (buildPacket n bytes)
  | .mirTail _ => .word (mirHashWord bytes)
  | .mumTail _ => .word (mumHashWord bytes)

/-- The effect of a command from what it reads. -/
def effectOf (remainder : Nat) (bytes : List Byte) (i : Instr) : Effect :=
  if lengthPasses remainder i then outputOf bytes i else .fault (lengthFault i)

/-- `TLEN` holds a value, where the command reads it. -/
def tlenHeld (i : Instr) (s : State) : Bool :=
  match i with
  | .fhTail _ => true
  | .hhPacket _ => s.tlen.isSome
  | .mirTail _ => true
  | .mumTail _ => true

/-- All that the command uses holds a value: `TLEN`, and its bytes once its length check has passed. -/
def usesHeld (i : Instr) (s : State) : Bool :=
  tlenHeld i s && (!lengthPasses (remainderOf (tlenBits s)) i || inputHeld i.len s)

theorem exec_of_passes {i : Instr} {s : State} (passes : lengthPasses (remainderOf (tlenBits s)) i = true) :
    exec i s = .next ((outputOf (readInput i.len s) i).apply (noteUse (tlenHeld i s && inputHeld i.len s) s)) := by
  cases i with
  | fhTail n => exact execFhTail_eq_next.2 (.inr ⟨of_decide_eq_true passes, rfl⟩)
  | hhPacket n =>
    refine execHhPacket_eq_next.2 (.inr ⟨of_decide_eq_true passes, ?_⟩)
    rw [noteInput, noteUse_noteUse]
    rfl
  | mirTail n => exact execMirTail_eq_next.2 (.inr ⟨of_decide_eq_true passes, rfl⟩)
  | mumTail n => exact execMumTail_eq_next.2 (.inr (.inr ⟨of_decide_eq_true passes, rfl⟩))

theorem exec_of_fails {i : Instr} {s : State} (fails : lengthPasses (remainderOf (tlenBits s)) i = false) :
    exec i s = .next (takeFault (lengthFault i) (noteUse (tlenHeld i s) s)) := by
  cases i with
  | fhTail n =>
    rw [tlenHeld, noteUse_true]
    exact execFhTail_eq_next.2 (.inl ⟨Nat.not_le.1 (of_decide_eq_false fails), rfl⟩)
  | hhPacket n => exact execHhPacket_eq_next.2 (.inl ⟨of_decide_eq_false fails, rfl⟩)
  | mirTail n =>
    rw [tlenHeld, noteUse_true]
    exact execMirTail_eq_next.2 (.inl ⟨Nat.not_le.1 (of_decide_eq_false fails), rfl⟩)
  | mumTail n =>
    rw [tlenHeld, noteUse_true, lengthFault]
    refine execMumTail_eq_next.2 ?_
    rcases Nat.lt_or_gt_of_ne (of_decide_eq_false fails) with short | long
    · exact .inr (.inl ⟨short, by rw [if_neg (by omega)]⟩)
    · exact .inl ⟨long, by rw [if_pos long]⟩

/-- The arms of `exec` as one equation. -/
theorem exec_eq_apply (i : Instr) (s : State) :
    exec i s = .next ((effectOf (remainderOf (tlenBits s)) (readInput i.len s) i).apply (noteUse (usesHeld i s) s)) := by
  unfold effectOf usesHeld
  cases passes : lengthPasses (remainderOf (tlenBits s)) i with
  | true => simpa using exec_of_passes passes
  | false => simpa [Effect.apply] using exec_of_fails passes

@[simp] theorem apply_marked (e : Effect) (s : State) : (e.apply s).marked = s.marked := by
  cases e <;> rfl

@[simp] theorem apply_clears (e : Effect) (s : State) : (e.apply s).clears = s.clears + 1 := by
  cases e <;> rfl

/-- The outputs and `STATUS` that an effect leaves depend on no register but `STATUS`. -/
theorem apply_outputs_congr (e : Effect) {s₁ s₂ : State} (status : s₁.status = s₂.status) :
    (e.apply s₁).result = (e.apply s₂).result ∧ (e.apply s₁).lane = (e.apply s₂).lane ∧
      (e.apply s₁).packet = (e.apply s₂).packet ∧ (e.apply s₁).status = (e.apply s₂).status := by
  cases e <;> simp [Effect.apply, status]

/-- A command's contract is the length check, and a `TLEN` that holds a value where it is read. -/
theorem lengthLegal_iff {i : Instr} {s : State} :
    LengthLegal i s ↔ tlenHeld i s = true ∧ lengthPasses (remainderOf (tlenBits s)) i = true := by
  cases i with
  | fhTail n => simp [LengthLegal, tlenHeld, lengthPasses]
  | hhPacket n =>
    cases held : s.tlen with
    | none => simp [LengthLegal, tlenHeld, held]
    | some T => simp [LengthLegal, tlenHeld, lengthPasses, held, tlenBits_of_some held, remainderOf_eq_mod]
  | mirTail n => simp [LengthLegal, tlenHeld, lengthPasses]
  | mumTail n => simp [LengthLegal, tlenHeld, lengthPasses]

theorem tlenHeld_eq_false_iff {i : Instr} {s : State} : tlenHeld i s = false ↔ ∃ n, i = .hhPacket n ∧ s.tlen = none := by
  cases i <;> simp [tlenHeld]

/-- The bytes of a command that passes its length check all stand in `DATA`. -/
theorem len_le_of_passes {i : Instr} {s : State} (passes : lengthPasses (remainderOf (tlenBits s)) i = true) :
    i.len ≤ 32 := by
  cases i with
  | fhTail n => exact Nat.le_trans (of_decide_eq_true passes : n ≤ 7) (by decide)
  | hhPacket n => exact (of_decide_eq_true passes : n = _) ▸ Nat.le_of_lt (remainderOf_lt _)
  | mirTail n => exact Nat.le_trans (of_decide_eq_true passes : n ≤ 7) (by decide)
  | mumTail n => exact (of_decide_eq_true passes : n = 7).trans_le (by decide)

theorem inputHeld_eq_false_iff {n : Nat} {s : State} (bound : n ≤ 32) :
    inputHeld n s = false ↔ ∃ j : Fin 32, j.val < n ∧ s.data[j] = none := by
  rw [← Bool.not_eq_true, inputHeld_iff]
  push Not
  constructor
  · rintro ⟨j, below, unwritten⟩
    exact ⟨⟨j, by omega⟩, below, (dataByte_of_lt _ s).symm.trans unwritten⟩
  · rintro ⟨j, below, unwritten⟩
    exact ⟨j, below, (dataByte_of_lt j.isLt s).trans unwritten⟩

/-- What a command uses is not all held exactly when it uses an input that holds `⊥`. -/
theorem usesHeld_eq_false_iff {i : Instr} {s : State} : usesHeld i s = false ↔ UsesUnwritten i s := by
  rw [usesHeld, UsesUnwritten, Bool.and_eq_false_iff, tlenHeld_eq_false_iff, lengthLegal_iff]
  cases passes : lengthPasses (remainderOf (tlenBits s)) i with
  | false => simp
  | true =>
    have unwritten := inputHeld_eq_false_iff (s := s) (len_le_of_passes passes)
    rw [← tlenHeld_eq_false_iff]
    cases tlenHeld i s <;> simp [unwritten]

theorem exec_marked_iff {i : Instr} {s t : State} (ran : exec i s = .next t) :
    t.marked = true ↔ s.marked = true ∨ UsesUnwritten i s := by
  obtain rfl := Host.Outcome.next.inj ((exec_eq_apply i s).symm.trans ran)
  simp [← usesHeld_eq_false_iff]

theorem exec_marked_of_not_usesUnwritten {i : Instr} {s t : State} (written : ¬ UsesUnwritten i s)
    (ran : exec i s = .next t) : t.marked = s.marked := by
  rw [Bool.eq_iff_iff, exec_marked_iff ran, or_iff_left written]

theorem exec_clears {i : Instr} {s t : State} (ran : exec i s = .next t) : t.clears = s.clears + 1 := by
  obtain rfl := Host.Outcome.next.inj ((exec_eq_apply i s).symm.trans ran)
  simp

/-- Settles O31: each outcome of a command names the same frame. -/
theorem commandsKeepInputsAndLastFields : Obligations.CommandsKeepInputsAndLastFields := by
  unfold Obligations.CommandsKeepInputsAndLastFields
  intro i s t ran
  rcases exec_outcome ran with ⟨_, faulted⟩ | ⟨-, _, committed⟩ | ⟨-, _, committed⟩
  · exact ⟨faulted.inputs, faulted.last⟩
  · exact ⟨committed.inputs, committed.last⟩
  · exact ⟨committed.inputs, committed.last⟩

theorem issueCommand_next (w : Word32) (s : State) : ∃ t, issueCommand w s = .next t := by
  rcases statusFault_cases s.status with running | faulted
  · cases decoded : decode w with
    | error e => exact ⟨_, issueCommand_of_decode_error running decoded⟩
    | ok i =>
      rw [issueCommand_of_decode_ok running decoded]
      exact exec_next i _
  · exact ⟨s, issueCommand_of_fault faulted w⟩

/-- A word whose inputs are written leaves no mark, whatever it does. -/
theorem issueCommand_marked_of_written {w : Word32} {s t : State}
    (data : ∀ j : Fin 32, j.val < (lenField w).toNat → s.data[j] ≠ none)
    (tlen : (opField w).toNat = 1 → s.tlen ≠ none) (issued : issueCommand w s = .next t) : t.marked = s.marked := by
  rcases issueCommand_next_cases issued with ⟨-, rfl⟩ | ⟨-, ⟨e, -, rfl⟩ | ⟨i, decoded, ran⟩⟩
  · rfl
  · rfl
  · refine (exec_marked_of_not_usesUnwritten ?_ ran).trans (acceptWord_marked w s)
    obtain ⟨op, -, len⟩ := decode_eq_ok_iff.1 decoded
    rintro (⟨n, rfl, unwritten⟩ | ⟨-, j, below, unwritten⟩)
    · exact tlen (congrArg BitVec.toNat op) unwritten
    · exact data j (len ▸ below) unwritten

/-- Settles O11: no arm of the command and no decoding answers anything but a next state. -/
theorem commandsAlwaysComplete : Obligations.CommandsAlwaysComplete := by
  refine ⟨exec_next, fun s w rest next => ?_⟩
  obtain ⟨t, issued⟩ := issueCommand_next w { s with pending := rest }
  exact ⟨t, (step_nextIsCommand next).trans issued, fun data tlen =>
    issueCommand_marked_of_written (s := { s with pending := rest }) data tlen issued⟩

end Sys2Proof.Proofs
end

section
/-! PROOF. Inputs that hold `⊥` (44_host_interface.md R101; log entries 1, 11 and 12), and what an outcome can depend on
(10_state.md R19, R38). -/

namespace Sys2Proof.Proofs
open Sys2Proof Sys2Proof.Machine Sys2Proof.Spec

theorem lengthPasses_congr {i : Instr} {r₁ r₂ : Nat} (remainder : ∀ n, i = .hhPacket n → r₁ = r₂) :
    lengthPasses r₁ i = lengthPasses r₂ i := by
  cases i with
  | hhPacket n => rw [remainder n rfl]
  | fhTail n => rfl
  | mirTail n => rfl
  | mumTail n => rfl

/-- The effect depends on `TLEN[4:0]` for `HH.PACKET` alone, and on the bytes only under a legal length. -/
theorem effectOf_congr {i : Instr} {r₁ r₂ : Nat} {bytes₁ bytes₂ : List Byte}
    (remainder : ∀ n, i = .hhPacket n → r₁ = r₂) (bytes : lengthPasses r₁ i = true → bytes₁ = bytes₂) :
    effectOf r₁ bytes₁ i = effectOf r₂ bytes₂ i := by
  rw [effectOf, effectOf, ← lengthPasses_congr remainder]
  split
  · next passes => rw [bytes passes]
  · rfl

theorem tlenHeld_congr {i : Instr} {s₁ s₂ : State}
    (tlen : ∀ n, i = .hhPacket n → s₁.tlen.isSome = s₂.tlen.isSome) : tlenHeld i s₁ = tlenHeld i s₂ := by
  cases i with
  | hhPacket n => exact tlen n rfl
  | fhTail n => rfl
  | mirTail n => rfl
  | mumTail n => rfl

/-- Whether a command uses `⊥` depends on the inputs it reads alone. -/
theorem usesHeld_congr {i : Instr} {s₁ s₂ : State} (tlen : ∀ n, i = .hhPacket n → s₁.tlen.isSome = s₂.tlen.isSome)
    (remainder : ∀ n, i = .hhPacket n → remainderOf (tlenBits s₁) = remainderOf (tlenBits s₂))
    (bytes : lengthPasses (remainderOf (tlenBits s₂)) i = true → ∀ j, j < i.len → dataByte j s₁ = dataByte j s₂) :
    usesHeld i s₁ = usesHeld i s₂ := by
  rw [usesHeld, usesHeld, tlenHeld_congr tlen, lengthPasses_congr remainder]
  cases passes : lengthPasses (remainderOf (tlenBits s₂)) i with
  | true => rw [inputHeld_congr (bytes passes)]
  | false => rfl

@[simp] theorem inputsFilled_status (s : State) : (inputsFilled s).status = s.status := by rw [inputsFilled]
@[simp] theorem inputsFilled_source (s : State) : (inputsFilled s).source = s.source := by rw [inputsFilled]
@[simp] theorem inputsFilled_resets (s : State) : (inputsFilled s).resets = s.resets := by rw [inputsFilled]

theorem dataByte_inputsFilled {j : Nat} (buffered : j < 32) (s : State) :
    dataByte j (inputsFilled s) = some (dataBits j s) := by
  rw [dataByte_of_lt buffered]
  exact Vector.getElem_ofFn buffered

/-- A filled input keeps its value, and takes the free bits it had where it held none. -/
theorem dataBits_inputsFilled (j : Nat) (s : State) : dataBits j (inputsFilled s) = dataBits j s := by
  by_cases buffered : j < 32
  · exact dataBits_of_some (dataByte_inputsFilled buffered s)
  · exact dataBits_congr (by simp [dataByte, buffered]) (by simp) (by simp)

/-- A command on a state whose inputs hold their own free bits has the effect it has on the state itself. -/
theorem exec_inputsFilled (i : Instr) (s : State) :
    ∃ t u, exec i s = .next t ∧ exec i (inputsFilled s) = .next u ∧
      t.result = u.result ∧ t.lane = u.lane ∧ t.packet = u.packet ∧ t.status = u.status := by
  have sameBytes : readInput i.len (inputsFilled s) = readInput i.len s :=
    readInput_congr fun j _ => dataBits_inputsFilled j s
  have sameTlen : tlenBits (inputsFilled s) = tlenBits s := tlenBits_of_some rfl
  refine ⟨_, _, exec_eq_apply i s, exec_eq_apply i (inputsFilled s), ?_⟩
  rw [sameBytes, sameTlen]
  exact apply_outputs_congr _ (by simp)

/-- Settles O27: the effect is a function of the bits; the mark says which of them held no value; the fault checks are
those of the length contracts and of decoding. -/
theorem unwrittenInputsEnterWithTheirBits : Obligations.UnwrittenInputsEnterWithTheirBits := by
  obtain ⟨-, fhLong, mirLong, mumLong, mumShort, hhMismatch, -⟩ := lengthContractsFaultWhenBroken
  refine ⟨exec_inputsFilled, fun i s t => exec_marked_iff, fun s n long => ⟨fhLong s n long, mirLong s n long,
    mumLong s n long⟩, mumShort, hhMismatch, fun s w rest next running rejected => ?decoding⟩
  case decoding =>
    cases decoded : decode w with
    | ok i =>
      obtain ⟨legal, rsv⟩ := (exists_decode_eq_ok_iff w).1 ⟨i, decoded⟩
      exact absurd rejected (not_or.2 ⟨Nat.not_le.2 legal, not_not.2 rsv⟩)
    | error e =>
      rw [firstCause_eq_causeCode, firstFault_of_error decoded]
      exact ⟨_, _, acceptWord_wordAccepted w rest s,
        (step_nextIsCommand next).trans (issueCommand_of_decode_error running decoded), rfl, takeFault_faultTaken _ _⟩

theorem dataByte_congr {n : Nat} {s₁ s₂ : State} (data : ∀ j : Fin 32, j.val < n → s₁.data[j] = s₂.data[j]) {j : Nat}
    (below : j < n) : dataByte j s₁ = dataByte j s₂ := by
  by_cases buffered : j < 32
  · rw [dataByte_of_lt buffered, dataByte_of_lt buffered]
    exact data ⟨j, buffered⟩ below
  · simp [dataByte, buffered]

theorem remainderOf_tlenBits_congr {s₁ s₂ : State}
    (tlen : s₁.tlen.map (fun T => T.extractLsb' 0 5) = s₂.tlen.map (fun T => T.extractLsb' 0 5))
    (source : s₁.source = s₂.source) (resets : s₁.resets = s₂.resets) :
    remainderOf (tlenBits s₁) = remainderOf (tlenBits s₂) := by
  cases held₁ : s₁.tlen with
  | none =>
    have held₂ : s₂.tlen = none := Option.map_eq_none_iff.1 (by rw [← tlen, held₁, Option.map_none])
    rw [tlenBits, tlenBits, held₁, held₂, source, resets]
  | some T₁ =>
    obtain ⟨T₂, held₂, sameBits⟩ := Option.map_eq_some_iff.1 (by rw [← tlen, held₁, Option.map_some])
    rw [tlenBits_of_some held₁, tlenBits_of_some held₂]
    exact congrArg BitVec.toNat sameBits.symm

/-- Settles O29: the effect and the use of `⊥` are functions of the inputs read, and the outputs of the effect. -/
theorem outcomeDependsOnlyOnTheInputsRead : Obligations.OutcomeDependsOnlyOnTheInputsRead := by
  unfold Obligations.OutcomeDependsOnlyOnTheInputsRead
  intro i s₁ s₂ data tlen status source resets marked
  have sameByte (j : Nat) (below : j < i.len) : dataByte j s₂ = dataByte j s₁ := (dataByte_congr data below).symm
  have sameBytes : readInput i.len s₂ = readInput i.len s₁ :=
    readInput_congr fun j below => dataBits_congr (sameByte j below) source.symm resets.symm
  have sameRemainder (n : Nat) (isPacket : i = .hhPacket n) :
      remainderOf (tlenBits s₂) = remainderOf (tlenBits s₁) :=
    (remainderOf_tlenBits_congr (tlen n isPacket) source resets).symm
  have sameUse : usesHeld i s₂ = usesHeld i s₁ :=
    usesHeld_congr (fun n isPacket => by simpa using (congrArg Option.isSome (tlen n isPacket)).symm) sameRemainder
      fun _ => sameByte
  refine ⟨_, _, exec_eq_apply i s₁, exec_eq_apply i s₂, ?_⟩
  rw [effectOf_congr sameRemainder fun _ => sameBytes, sameUse]
  obtain ⟨result, lane, packet, statusKept⟩ := apply_outputs_congr
    (effectOf (remainderOf (tlenBits s₁)) (readInput i.len s₁) i)
    (s₁ := noteUse (usesHeld i s₁) s₂) (s₂ := noteUse (usesHeld i s₁) s₁) status.symm
  exact ⟨result, lane, packet, statusKept, by simp [marked]⟩

/-- `s` with other contents in the input registers. -/
def withInputs (data : Vector (Option Byte) 32) (tlen : Option Word64) (s : State) : State :=
  { s with data := data, tlen := tlen }

theorem apply_withInputs (e : Effect) (data : Vector (Option Byte) 32) (tlen : Option Word64) (s : State) :
    e.apply (withInputs data tlen s) = withInputs data tlen (e.apply s) := by
  cases e <;> rfl

section
variable {i : Instr} {s : State} {data : Vector (Option Byte) 32} {tlen : Option Word64}

/-- The `TLEN` a command reads is the same, where it held a value. -/
theorem tlen_kept_of_tlenHeld (tlenKept : s.tlen ≠ none → tlen = s.tlen) (held : tlenHeld i s = true) (n : Nat)
    (isPacket : i = .hhPacket n) : tlen = s.tlen := by
  subst isPacket
  exact tlenKept (Option.isSome_iff_ne_none.1 held)

/-- So are the bytes, where all of them held a value. -/
theorem dataByte_withInputs_of_inputHeld (dataKept : ∀ j : Fin 32, s.data[j] ≠ none → data[j] = s.data[j]) {n : Nat}
    (bound : n ≤ 32) (held : inputHeld n s = true) {j : Nat} (below : j < n) :
    dataByte j (withInputs data tlen s) = dataByte j s := by
  have buffered : j < 32 := Nat.lt_of_lt_of_le below bound
  have written := inputHeld_iff.1 held j below
  rw [dataByte_of_lt buffered] at written ⊢
  rw [dataByte_of_lt buffered]
  exact dataKept ⟨j, buffered⟩ written

/-- A command all of whose used inputs held a value does the same whatever the other inputs are. -/
theorem exec_withInputs_of_usesHeld (dataKept : ∀ j : Fin 32, s.data[j] ≠ none → data[j] = s.data[j])
    (tlenKept : s.tlen ≠ none → tlen = s.tlen) (held : usesHeld i s = true) :
    exec i (withInputs data tlen s) =
      .next (withInputs data tlen ((effectOf (remainderOf (tlenBits s)) (readInput i.len s) i).apply s)) := by
  obtain ⟨heldTlen, heldBytes⟩ := Bool.and_eq_true_iff.1 held
  have sameTlen := tlen_kept_of_tlenHeld tlenKept heldTlen
  have sameRemainder (n : Nat) (isPacket : i = .hhPacket n) :
      remainderOf (tlenBits (withInputs data tlen s)) = remainderOf (tlenBits s) := by
    rw [withInputs, sameTlen n isPacket]
    rfl
  have sameByte (passes : lengthPasses (remainderOf (tlenBits s)) i = true) (j : Nat) (below : j < i.len) :
      dataByte j (withInputs data tlen s) = dataByte j s :=
    dataByte_withInputs_of_inputHeld dataKept (len_le_of_passes passes) (by simpa [passes] using heldBytes) below
  have sameUse : usesHeld i (withInputs data tlen s) = true :=
    (usesHeld_congr (fun n isPacket => congrArg Option.isSome (sameTlen n isPacket)) sameRemainder sameByte).trans held
  have sameEffect : effectOf (remainderOf (tlenBits (withInputs data tlen s))) (readInput i.len (withInputs data tlen s)) i =
      effectOf (remainderOf (tlenBits s)) (readInput i.len s) i :=
    effectOf_congr sameRemainder fun passes =>
      readInput_congr fun j below =>
        dataBits_congr (sameByte (lengthPasses_congr sameRemainder ▸ passes) j below) rfl rfl
  rw [exec_eq_apply, sameUse, noteUse_true, sameEffect, apply_withInputs]

end

/-- Settles O30: without a mark the command has used nothing but inputs that held a value, and those are the same. -/
theorem unwrittenBitsNeverReachAnUnmarkedOutput : Obligations.UnwrittenBitsNeverReachAnUnmarkedOutput := by
  unfold Obligations.UnwrittenBitsNeverReachAnUnmarkedOutput
  intro i s t data tlen dataKept tlenKept ran unmarked
  obtain rfl := Host.Outcome.next.inj ((exec_eq_apply i s).symm.trans ran)
  obtain ⟨-, held⟩ : s.marked = false ∧ usesHeld i s = true := by simpa using unmarked
  rw [held, noteUse_true]
  exact exec_withInputs_of_usesHeld dataKept tlenKept held

end Sys2Proof.Proofs
end

section
/-! PROOF. The same command word twice (20_memory.md R42): the second acceptance and the second commit write what the
first ones have written. -/

namespace Sys2Proof.Proofs
open Sys2Proof Sys2Proof.Machine Sys2Proof.Spec

theorem putKind_putKind (v : BitVec 2) (st : Word32) : putKind v (putKind v st) = putKind v st :=
  status_ext _ _ (by simp) (by simp) (by simp) (by simp) (by simp) (by simp) (by simp)

/-- Accepting the word that the state already names changes nothing. -/
theorem acceptWord_of_named {w : Word32} {s : State} (cmd : s.cmd = w) (lastOp : statusLastOp s.status = opField w)
    (lastLen : statusLastLen s.status = lenField w) : acceptWord w s = s := by
  have status : putLastLen (lenField w) (putLastOp (opField w) s.status) = s.status :=
    status_ext _ _ (by simp) (by simp) (by simp) (by simp) (by simp [lastOp]) (by simp [lastLen]) (by simp)
  rw [acceptWord, status, ← cmd]

/-- Committing an output twice, with the same use noted, leaves what committing it once leaves; only `clears` moves. -/
theorem apply_apply_of_not_fault {e : Effect} (committed : ∀ c, e ≠ .fault c) (held : Bool) (s : State)
    (rest : List HostAccess) :
    let t := e.apply (noteUse held s)
    e.apply (noteUse held { t with pending := rest }) = { t with pending := rest, clears := t.clears + 1 } := by
  cases e with
  | fault c => exact absurd rfl (committed c)
  | word v => simp [Effect.apply, commitWord, withoutOutputs, noteUse, putKind_putKind]
  | packet p => simp [Effect.apply, commitPacket, withoutOutputs, noteUse, putKind_putKind]

/-- What a command reads is fixed by the input registers and the source of their free bits. -/
theorem reads_congr {s₁ s₂ : State} (data : s₁.data = s₂.data) (tlen : s₁.tlen = s₂.tlen)
    (source : s₁.source = s₂.source) (resets : s₁.resets = s₂.resets) (i : Instr) :
    tlenBits s₁ = tlenBits s₂ ∧ readInput i.len s₁ = readInput i.len s₂ ∧ usesHeld i s₁ = usesHeld i s₂ := by
  have sameByte (j : Nat) : dataByte j s₁ = dataByte j s₂ := by rw [dataByte, dataByte, data]
  have sameTlen : tlenBits s₁ = tlenBits s₂ := by rw [tlenBits, tlenBits, tlen, source, resets]
  exact ⟨sameTlen, readInput_congr fun j _ => dataBits_congr (sameByte j) source resets,
    usesHeld_congr (fun _ _ => by rw [tlen]) (fun _ _ => by rw [sameTlen]) fun _ j _ => sameByte j⟩

/-- A command that has succeeded does the same again: it reads what it has read, and commits what stands there. -/
theorem exec_again {i : Instr} {s t : State} (ran : exec i s = .next t) (success : statusFault t.status ≠ 1)
    (rest : List HostAccess) :
    exec i { t with pending := rest } = .next { t with pending := rest, clears := t.clears + 1 } := by
  obtain ⟨inputs, -⟩ := commandsKeepInputsAndLastFields i s t ran
  obtain ⟨sameTlen, sameBytes, sameUse⟩ :=
    reads_congr (s₁ := { t with pending := rest }) inputs.data inputs.tlen inputs.source inputs.resets i
  rw [exec_eq_apply, sameTlen, sameBytes, sameUse]
  obtain rfl := Host.Outcome.next.inj ((exec_eq_apply i s).symm.trans ran)
  refine congrArg _ (apply_apply_of_not_fault (fun c isFault => success ?_) _ s rest)
  rw [isFault]
  exact (takeFault_noteUse_faultTaken c _ s).fault

/-- Issuing a word again changes nothing but `clears`. -/
theorem issueCommand_again {w : Word32} {s t : State} (issued : issueCommand w s = .next t) (rest : List HostAccess) :
    ∃ c, issueCommand w { t with pending := rest } = .next { t with pending := rest, clears := c } := by
  rcases statusFault_cases t.status with running | faulted
  case inr => exact ⟨t.clears, issueCommand_of_fault (s := { t with pending := rest }) faulted w⟩
  have success : statusFault t.status ≠ 1 := by simp [running]
  rcases issueCommand_next_cases issued with ⟨faulted, rfl⟩ | ⟨-, ⟨e, -, rfl⟩ | ⟨i, decoded, ran⟩⟩
  · exact absurd faulted success
  · exact absurd (takeFault_faultTaken _ _).fault success
  · obtain ⟨inputs, last⟩ := commandsKeepInputsAndLastFields i _ t ran
    have named : acceptWord w { t with pending := rest } = { t with pending := rest } :=
      acceptWord_of_named (s := { t with pending := rest }) inputs.cmd (last.lastOp.trans (acceptWord_lastOp w s))
        (last.lastLen.trans (acceptWord_lastLen w s))
    rw [issueCommand_of_decode_ok (s := { t with pending := rest }) running decoded, named]
    exact ⟨_, exec_again ran success rest⟩

/-- A `CMD` write leaves the input registers, the source of their free bits and the accesses to come alone. -/
theorem issueCommand_frame {w : Word32} {s t : State} (issued : issueCommand w s = .next t) :
    t.data = s.data ∧ t.tlen = s.tlen ∧ t.source = s.source ∧ t.resets = s.resets ∧ t.pending = s.pending := by
  rcases issueCommand_next_cases issued with ⟨-, rfl⟩ | ⟨-, ⟨e, -, rfl⟩ | ⟨i, -, ran⟩⟩
  · exact ⟨rfl, rfl, rfl, rfl, rfl⟩
  · exact ⟨rfl, rfl, rfl, rfl, rfl⟩
  · obtain ⟨inputs, -⟩ := commandsKeepInputsAndLastFields i _ t ran
    exact ⟨inputs.data, inputs.tlen, inputs.source, inputs.resets, inputs.pending⟩

theorem issueCommand_pending {w : Word32} {s t : State} (issued : issueCommand w s = .next t) :
    t.pending = s.pending := by
  obtain ⟨-, -, -, -, pending⟩ := issueCommand_frame issued
  exact pending

/-- Settles O13: after the first step the same word is next, and issuing it again moves `clears` alone. -/
theorem repeatedCommandChangesNothing : Obligations.RepeatedCommandChangesNothing := by
  unfold Obligations.RepeatedCommandChangesNothing
  intro s t w rest next stepped
  rw [step_nextIsCommand next] at stepped
  obtain ⟨c, again⟩ := issueCommand_again stepped rest
  exact ⟨_, (step_nextIsCommand (issueCommand_pending stepped)).trans again, rfl⟩

end Sys2Proof.Proofs
end

section
/-! PROOF. The `SEL` map and host reads (10_state.md R35, 44_host_interface.md R100, R102): a read returns the bits of its
register and, where that holds `⊥`, marks the state. -/

namespace Sys2Proof.Proofs
open Sys2Proof Sys2Proof.Machine Sys2Proof.Spec

theorem regOf_ofNat_lane (k : Fin 4) : regOf (BitVec.ofNat 7 (0x24 + k)) = some (.lane k) := by
  revert k
  decide

theorem regOf_ofNat_packet (i : Fin 32) : regOf (BitVec.ofNat 7 (0x40 + i)) = some (.packet i) := by
  revert i
  decide

/-- Each register is named by its own `SEL` and by no other. -/
theorem regOf_eq_some_iff (sel : Select) (r : Reg) : regOf sel = some r ↔ selOf r = sel := by
  constructor
  · have named : ∀ sel : Select, ∀ r ∈ regOf sel, selOf r = sel := by decide
    exact named sel r
  · rintro rfl
    cases r with
    | data i => exact regOf_ofNat_data i
    | tlen => decide
    | cmd => decide
    | status => decide
    | result => decide
    | lane k => exact regOf_ofNat_lane k
    | packet i => exact regOf_ofNat_packet i

/-- Settles O35: one lemma for each bank of registers, the reserved ranges and the inverse. -/
theorem selectMap : Obligations.SelectMap :=
  ⟨regOf_ofNat_data, by decide, by decide, by decide, by decide, regOf_ofNat_lane, regOf_ofNat_packet,
    regOf_eq_none_iff, regOf_eq_some_iff⟩

theorem holdsValue_withPending (r : Reg) (s : State) (rest : List HostAccess) :
    holdsValue r { s with pending := rest } = holdsValue r s := by
  cases r <;> rfl

theorem readReg_withPending (r : Reg) (s : State) (rest : List HostAccess) :
    readReg r { s with pending := rest } = readReg r s := by
  cases r <;> rfl

/-- A read of a mapped register is taken. -/
theorem step_read {s : State} {sel : Select} {r : Reg} {rest : List HostAccess}
    (next : NextAccessIs s (.read sel) rest) (mapped : regOf sel = some r) :
    step s = .next (noteUse (holdsValue r s) { s with pending := rest, readData := some (readReg r s) }) := by
  rw [step_cons next, performAccess, hostRead, mapped, ← holdsValue_withPending r s rest,
    ← readReg_withPending r s rest]

theorem step_read_of_holdsValue {s : State} {sel : Select} {r : Reg} {v : RegValue} {rest : List HostAccess}
    (next : NextAccessIs s (.read sel) rest) (mapped : regOf sel = some r) (held : holdsValue r s = true)
    (value : readReg r s = v) : step s = .next { s with pending := rest, readData := some v } := by
  rw [step_read next mapped, held, noteUse_true, value]

theorem step_read_of_not_holdsValue {s : State} {sel : Select} {r : Reg} {v : RegValue} {rest : List HostAccess}
    (next : NextAccessIs s (.read sel) rest) (mapped : regOf sel = some r) (unheld : holdsValue r s = false)
    (bits : readReg r s = v) : step s = .next { s with pending := rest, readData := some v, marked := true } := by
  rw [step_read next mapped, unheld, bits, noteUse, Bool.not_false, Bool.or_true]

/-- Settles O37: register by register, the value it holds is the one `readReg` gives. -/
theorem readsReturnTheWholeRegister : Obligations.ReadsReturnTheWholeRegister := by
  unfold Obligations.ReadsReturnTheWholeRegister
  intro s rest
  refine ⟨fun i b next holds => ?data, fun T next holds => ?tlen, fun next => ?cmd, fun next => ?status,
    fun v next holds => ?result, fun k v next holds => ?lane, fun i b next holds => ?packet⟩
  case data =>
    have bits : dataBits i s = b := dataBits_of_some ((dataByte_of_lt i.isLt s).trans holds)
    exact step_read_of_holdsValue next (regOf_ofNat_data i) (by simp [holdsValue, holds]) (by rw [readReg, bits])
  case tlen =>
    exact step_read_of_holdsValue next (r := .tlen) (by decide) (by simp [holdsValue, holds])
      (by rw [readReg, tlenBits_of_some holds])
  case cmd => exact step_read_of_holdsValue next (r := .cmd) (by decide) rfl rfl
  case status => exact step_read_of_holdsValue next (r := .status) (by decide) rfl rfl
  case result =>
    exact step_read_of_holdsValue next (r := .result) (by decide) (by simp [holdsValue, holds])
      (by rw [readReg, holds, Option.getD_some])
  case lane =>
    exact step_read_of_holdsValue next (regOf_ofNat_lane k) (by simp [holdsValue, holds])
      (by rw [readReg, holds, Option.getD_some])
  case packet =>
    exact step_read_of_holdsValue next (regOf_ofNat_packet i) (by simp [holdsValue, holds])
      (by rw [readReg, holds, Option.getD_some])

/-- What a read leaves gives the same read again. -/
theorem step_read_again {s t : State} {sel : Select} {r : Reg} {rest : List HostAccess} (mapped : regOf sel = some r)
    (read : t = noteUse (holdsValue r s) { s with pending := .read sel :: rest, readData := some (readReg r s) }) :
    step t = .next { t with pending := rest } := by
  have next : NextAccessIs t (.read sel) rest := by rw [read]; rfl
  have held : holdsValue r t = holdsValue r s := by rw [read]; cases r <;> rfl
  have bits : readReg r t = readReg r s := by rw [read]; cases r <;> rfl
  rw [step_read next mapped, held, bits, read]
  have onceMore := noteUse_noteUse (holdsValue r s) (holdsValue r s)
    { s with pending := rest, readData := some (readReg r s) }
  rw [Bool.and_self] at onceMore
  exact congrArg _ onceMore

/-- Settles O38: the step wrote `readData` and the mark, which are what the same read writes again. -/
theorem readsAreRepeatable : Obligations.ReadsAreRepeatable := by
  unfold Obligations.ReadsAreRepeatable
  intro s t sel rest next stepped
  cases mapped : regOf sel with
  | none => exact absurd ((step_read_of_unmapped next mapped).symm.trans stepped) nofun
  | some r =>
    have read := Host.Outcome.next.inj (stepped.symm.trans (step_read next mapped))
    exact ⟨by rw [read]; rfl, step_read_again mapped read⟩

/-- In a coherent state `KIND` says which outputs hold a value. -/
theorem holdsValue_eq_mayRead {s : State} (coherent : Coherent s) (r : Reg) : holdsValue r s = mayRead r s := by
  obtain ⟨-, result, lane, packet⟩ := coherent.outputs
  cases r with
  | data i => rfl
  | tlen => rfl
  | cmd => rfl
  | status => rfl
  | result => rw [Bool.eq_iff_iff, holdsValue, result, mayRead, beq_iff_eq]
  | lane k => rw [Bool.eq_iff_iff, holdsValue, lane, mayRead, beq_iff_eq]
  | packet i => rw [Bool.eq_iff_iff, holdsValue, packet, mayRead, beq_iff_eq]

/-- The bits of an output that holds `⊥`. -/
theorem readReg_output_of_not_holdsValue (s : State) :
    (holdsValue .result s = false → readReg .result s = .long (Config.freeLong s.source s.clears 0x23)) ∧
    (∀ k : Fin 4, holdsValue (.lane k) s = false →
      readReg (.lane k) s = .long (Config.freeLong s.source s.clears (BitVec.ofNat 7 (0x24 + k)))) ∧
    (∀ i : Fin 32, holdsValue (.packet i) s = false →
      readReg (.packet i) s = .byte (Config.freeByte s.source s.clears (BitVec.ofNat 7 (0x40 + i)))) := by
  simp only [holdsValue, Option.isSome_eq_false_iff, Option.isNone_iff_eq_none]
  refine ⟨fun none => ?_, fun k none => ?_, fun i none => ?_⟩ <;> rw [readReg, none, Option.getD_none, selOf]

theorem step_read_marked_of_holdsValue {s : State} {sel : Select} {r : Reg} {rest : List HostAccess}
    (next : NextAccessIs s (.read sel) rest) (mapped : regOf sel = some r) (held : holdsValue r s = true) :
    ∃ t, step s = .next t ∧ t.pending = rest ∧ t.marked = s.marked :=
  ⟨_, step_read_of_holdsValue next mapped held rfl, rfl, rfl⟩

/-- Settles O39: a read of `⊥` is a read of a register that holds no value; for the outputs `KIND` says so. -/
theorem readsOfNoValueReturnFreeBits : Obligations.ReadsOfNoValueReturnFreeBits := by
  unfold Obligations.ReadsOfNoValueReturnFreeBits
  intro s rest returns leavesNoMark
  refine ⟨fun i next none => ?data, fun next none => ?tlen, fun coherent => ?outputs⟩
  case data =>
    have bits : dataBits i s = Config.freeByte s.source s.resets (BitVec.ofNat 7 i) := by
      rw [dataBits, dataByte_of_lt i.isLt, ← Fin.getElem_fin, none, Option.getD_none]
    exact step_read_of_not_holdsValue next (regOf_ofNat_data i) (by simp [holdsValue, none]) (by rw [readReg, bits])
  case tlen =>
    have bits : tlenBits s = Config.freeLong s.source s.resets 0x20 := by rw [tlenBits, none, Option.getD_none]
    exact step_read_of_not_holdsValue next (r := .tlen) (by decide) (by simp [holdsValue, none]) (by rw [readReg, bits])
  case outputs =>
    have holds (r : Reg) := holdsValue_eq_mayRead coherent r
    have toResult : regOf 0x23 = some .result := by decide
    obtain ⟨resultBits, laneBits, packetBits⟩ := readReg_output_of_not_holdsValue s
    have unheld {r : Reg} (otherKind : mayRead r s = false) : holdsValue r s = false := (holds r).trans otherKind
    have noMark {sel : Select} {r : Reg} (mapped : regOf sel = some r) (own : mayRead r s = true)
        (next : NextAccessIs s (.read sel) rest) : leavesNoMark := by
      obtain ⟨t, stepped, -, marked⟩ := step_read_marked_of_holdsValue next mapped ((holds r).trans own)
      exact ⟨t, stepped, marked⟩
    refine ⟨fun next kind => ?_, fun k next kind => ?_, fun i next kind => ?_, fun next kind => ?_,
      fun k next kind => ?_, fun i next kind => ?_⟩
    · have unheld := unheld (r := .result) (beq_false_of_ne kind)
      exact step_read_of_not_holdsValue next toResult unheld (resultBits unheld)
    · have unheld := unheld (r := .lane k) (beq_false_of_ne kind)
      exact step_read_of_not_holdsValue next (regOf_ofNat_lane k) unheld (laneBits k unheld)
    · have unheld := unheld (r := .packet i) (beq_false_of_ne kind)
      exact step_read_of_not_holdsValue next (regOf_ofNat_packet i) unheld (packetBits i unheld)
    · exact noMark toResult (beq_of_eq kind) next
    · exact noMark (regOf_ofNat_lane k) (beq_of_eq kind) next
    · exact noMark (regOf_ofNat_packet i) (beq_of_eq kind) next

/-- A write the rules allow is taken, and leaves no mark when the inputs are written. -/
theorem step_write_of_mayWrite {s : State} {sel : Select} {r : Reg} {v : Nat} {rest : List HostAccess}
    (written : InputsWritten s) (next : NextAccessIs s (.write sel v) rest) (mapped : regOf sel = some r)
    (allowed : mayWrite r v = true) : ∃ t, step s = .next t ∧ t.pending = rest ∧ t.marked = s.marked := by
  cases r with
  | data i => exact ⟨_, step_write_of_fits next mapped (of_decide_eq_true allowed), rfl, rfl⟩
  | tlen => exact ⟨_, step_write_of_fits next mapped (of_decide_eq_true allowed), rfl, rfl⟩
  | cmd =>
    obtain ⟨tlen, data⟩ := written
    rw [step_write_of_fits next mapped (of_decide_eq_true allowed), writeReg]
    obtain ⟨t, issued⟩ := issueCommand_next (BitVec.ofNat 32 v) { s with pending := rest }
    exact ⟨t, issued, issueCommand_pending issued, issueCommand_marked_of_written (s := { s with pending := rest })
      (fun j _ => Option.isSome_iff_ne_none.1 (data j)) (fun _ => Option.isSome_iff_ne_none.1 tlen) issued⟩
  | status => exact absurd allowed Bool.false_ne_true
  | result => exact absurd allowed Bool.false_ne_true
  | lane k => exact absurd allowed Bool.false_ne_true
  | packet i => exact absurd allowed Bool.false_ne_true

/-- Settles O41: an allowed read is of a register that holds a value, an allowed write one of the writes that are taken. -/
theorem allowedAccessesAreNeverRefused : Obligations.AllowedAccessesAreNeverRefused := by
  unfold Obligations.AllowedAccessesAreNeverRefused
  intro s a rest coherent written next allowed
  cases a with
  | read sel =>
    obtain ⟨r, mapped, mayRead⟩ := (Option.any_eq_true _ _).1 allowed
    exact step_read_marked_of_holdsValue next mapped ((holdsValue_eq_mayRead coherent r).trans mayRead)
  | write sel v =>
    obtain ⟨r, mapped, mayWrite⟩ := (Option.any_eq_true _ _).1 allowed
    exact step_write_of_mayWrite written next mapped mayWrite
  | reset => exact ⟨_, step_reset next, rfl, rfl⟩

end Sys2Proof.Proofs
end

section
/-! PROOF. What a step can do, said once (20_memory.md R46, 44_host_interface.md R96): the invariants and frames below
are read off its six cases. -/

namespace Sys2Proof.Proofs
open Sys2Proof Sys2Proof.Machine Sys2Proof.Spec

/-- The six ways in which a step is taken. -/
inductive StepTaken (s t : State) : Prop where
  | idle (noAccess : s.pending = []) (same : t = s)
  | read (sel : Select) (r : Reg) (rest : List HostAccess) (next : NextAccessIs s (.read sel) rest)
      (mapped : regOf sel = some r)
      (left : t = noteUse (holdsValue r s) { s with pending := rest, readData := some (readReg r s) })
  | writeData (i : Fin 32) (v : Nat) (rest : List HostAccess) (next : NextAccessIs s (.write (BitVec.ofNat 7 i) v) rest)
      (left : t = { s with data := s.data.set i (some (BitVec.ofNat 8 v)), pending := rest })
  | writeTlen (v : Nat) (rest : List HostAccess) (next : NextAccessIs s (.write 0x20 v) rest)
      (left : t = { s with tlen := some (BitVec.ofNat 64 v), pending := rest })
  | command (w : Word32) (rest : List HostAccess) (next : NextIsCommand s w rest)
      (issued : issueCommand w { s with pending := rest } = .next t)
  | reset (rest : List HostAccess) (next : NextAccessIs s .reset rest)
      (left : t = resetRegisters { s with pending := rest })

/-- A write to `CMD` that is taken writes a word. -/
theorem nextIsCommand_of_step {s t : State} {v : Nat} {rest : List HostAccess} (next : NextAccessIs s (.write 0x21 v) rest)
    (stepped : step s = .next t) : NextIsCommand s (BitVec.ofNat 32 v) rest := by
  have toCmd : regOf 0x21 = some .cmd := by decide
  rcases Nat.lt_or_ge v (2 ^ 32) with fits | tooWide
  · rwa [NextIsCommand, BitVec.toNat_ofNat, Nat.mod_eq_of_lt fits]
  · exact absurd ((step_write_of_tooWide next toCmd tooWide).symm.trans stepped) nofun

theorem stepTaken {s t : State} (stepped : step s = .next t) : StepTaken s t := by
  rcases step_next_cases stepped with ⟨noAccess, same⟩ | ⟨a, rest, next, performed⟩
  · exact .idle noAccess same
  rcases performAccess_next_cases performed with ⟨sel, r, rfl, mapped, left⟩ | ⟨sel, v, i, rfl, mapped, left⟩ |
    ⟨sel, v, rfl, mapped, left⟩ | ⟨sel, v, rfl, mapped, issued⟩ | ⟨rfl, left⟩
  · exact .read sel r rest next mapped (by rwa [holdsValue_withPending, readReg_withPending] at left)
  · obtain rfl := (regOf_eq_some_iff _ _).1 mapped
    exact .writeData i v rest next left
  · obtain rfl := (regOf_eq_some_iff _ _).1 mapped
    exact .writeTlen v rest next left
  · obtain rfl := (regOf_eq_some_iff _ _).1 mapped
    exact .command _ rest (nextIsCommand_of_step next stepped) issued
  · exact .reset rest next left

/-- The registers that only a command or a `Reset` writes are as before, with the free bits of the outputs. -/
structure OutputsKept (s t : State) : Prop where
  cmd : t.cmd = s.cmd
  status : t.status = s.status
  result : t.result = s.result
  lane : t.lane = s.lane
  packet : t.packet = s.packet
  clears : t.clears = s.clears

/-- Outside the fault state a `CMD` write makes the outputs `⊥` once, before a success writes its own. -/
theorem issueCommand_clears {w : Word32} {s t : State} (running : statusFault s.status = 0)
    (issued : issueCommand w s = .next t) : t.clears = s.clears + 1 := by
  rcases issueCommand_next_cases issued with ⟨faulted, -⟩ | ⟨-, ⟨e, -, rfl⟩ | ⟨i, -, ran⟩⟩
  · exact absurd (running.symm.trans faulted) (by decide)
  · rfl
  · exact exec_clears (s := acceptWord w s) ran

/-- Beside a command outside the fault state and a `Reset`, a step leaves those registers alone; both make the outputs
`⊥` once more. -/
theorem step_outputs_cases {s t : State} (stepped : step s = .next t) :
    OutputsKept s t ∨ (t.clears = s.clears + 1 ∧
      ((statusFault s.status = 0 ∧ ∃ w rest, NextIsCommand s w rest) ∨ s.pending.head? = some .reset)) := by
  cases stepTaken stepped with
  | idle _ same => exact .inl (by subst same; exact ⟨rfl, rfl, rfl, rfl, rfl, rfl⟩)
  | read _ _ _ _ _ left => exact .inl (by subst left; exact ⟨rfl, rfl, rfl, rfl, rfl, rfl⟩)
  | writeData _ _ _ _ left => exact .inl (by subst left; exact ⟨rfl, rfl, rfl, rfl, rfl, rfl⟩)
  | writeTlen _ _ _ left => exact .inl (by subst left; exact ⟨rfl, rfl, rfl, rfl, rfl, rfl⟩)
  | command w rest next issued =>
    rcases statusFault_cases s.status with running | faulted
    · exact .inr ⟨issueCommand_clears (s := { s with pending := rest }) running issued, .inl ⟨running, w, rest, next⟩⟩
    · obtain rfl := Host.Outcome.next.inj
        ((issueCommand_of_fault (s := { s with pending := rest }) faulted w).symm.trans issued)
      exact .inl ⟨rfl, rfl, rfl, rfl, rfl, rfl⟩
  | reset rest next left => exact .inr ⟨by rw [left]; rfl, .inr (congrArg List.head? next)⟩

theorem step_pending {s t : State} (stepped : step s = .next t) : t.pending = s.pending.tail := by
  cases stepTaken stepped with
  | idle noAccess same => rw [same, noAccess]; rfl
  | read _ _ _ next _ left => rw [left, next]; rfl
  | writeData _ _ _ next left => rw [left, next]; rfl
  | writeTlen _ _ next left => rw [left, next]; rfl
  | command _ _ next issued => rw [issueCommand_pending issued, next]; rfl
  | reset _ next left => rw [left, next]; rfl

/-- Settles O52: the frame of `step_outputs_cases`, with its two exceptions shut out. -/
theorem onlyCommandsAndResetChangeOutputs : Obligations.OnlyCommandsAndResetChangeOutputs := by
  unfold Obligations.OnlyCommandsAndResetChangeOutputs
  intro s t stepped notReset notCommand
  rcases step_outputs_cases stepped with kept | ⟨-, ⟨-, w, rest, next⟩ | isReset⟩
  · exact ⟨kept.cmd, kept.status, kept.result, kept.lane, kept.packet, kept.clears⟩
  · exact absurd (congrArg List.head? next) (notCommand w.toNat)
  · exact absurd isReset notReset

/-- A step other than a `Reset` leaves a faulted unit as it is. -/
theorem step_of_fault {s t : State} (faulted : statusFault s.status = 1) (notReset : s.pending.head? ≠ some .reset)
    (stepped : step s = .next t) : OutputsKept s t := by
  rcases step_outputs_cases stepped with kept | ⟨-, ⟨running, -⟩ | isReset⟩
  · exact kept
  · exact absurd (running.symm.trans faulted) (by decide)
  · exact absurd isReset notReset

/-- Settles O50: a step that keeps `STATUS` moves nothing, a `Reset` leaves `FAULT = 0`, and in the fault state nothing
but a `Reset` is left to change it. -/
theorem faultOutChangesOnlyOnCommandAndReset : Obligations.FaultOutChangesOnlyOnCommandAndReset := by
  unfold Obligations.FaultOutChangesOnlyOnCommandAndReset faultOut
  intro s t stepped
  refine ⟨rfl, fun low high => ?rises, fun high low => ?falls⟩
  case rises =>
    rcases step_outputs_cases stepped with kept | ⟨-, ⟨-, w, rest, next⟩ | isReset⟩
    · exact absurd (low.symm.trans ((congrArg statusFault kept.status).symm.trans high)) (by decide)
    · exact ⟨w.toNat, congrArg List.head? next⟩
    · obtain ⟨rest, next⟩ := List.head?_eq_some_iff.1 isReset
      obtain rfl := Host.Outcome.next.inj ((step_reset next).symm.trans stepped)
      exact absurd high (by rw [resetRegisters_status]; decide)
  case falls =>
    by_contra notReset
    have kept := step_of_fault high notReset stepped
    exact absurd (high.symm.trans ((congrArg statusFault kept.status).symm.trans low)) (by decide)

/-- What a step that is not a `Reset` does to the input registers: a write to one gives it a value. -/
theorem step_inputs_cases {s t : State} (stepped : step s = .next t) (notReset : s.pending.head? ≠ some .reset) :
    t.source = s.source ∧ t.resets = s.resets ∧
    (∀ i : Fin 32, t.data[i] = s.data[i] ∨
      t.data[i] ≠ none ∧ ∃ v, s.pending.head? = some (.write (BitVec.ofNat 7 i) v)) ∧
    (t.tlen = s.tlen ∨ t.tlen ≠ none ∧ ∃ v, s.pending.head? = some (.write 0x20 v)) := by
  cases stepTaken stepped with
  | idle _ same => subst same; exact ⟨rfl, rfl, fun _ => .inl rfl, .inl rfl⟩
  | read _ _ _ _ _ left => subst left; exact ⟨rfl, rfl, fun _ => .inl rfl, .inl rfl⟩
  | writeData i v rest next left =>
    subst left
    refine ⟨rfl, rfl, fun j => ?_, .inl rfl⟩
    rcases eq_or_ne i j with rfl | apart
    · exact .inr ⟨by simp, v, congrArg List.head? next⟩
    · exact .inl (Vector.getElem_set_ne i.isLt j.isLt (Fin.val_ne_of_ne apart))
  | writeTlen v rest next left =>
    subst left
    exact ⟨rfl, rfl, fun _ => .inl rfl, .inr ⟨nofun, v, congrArg List.head? next⟩⟩
  | command w rest next issued =>
    obtain ⟨data, tlen, source, resets, -⟩ := issueCommand_frame issued
    exact ⟨source, resets, fun i => .inl (by rw [data]), .inl tlen⟩
  | reset rest next _ => exact absurd (congrArg List.head? next) notReset

/-- Settles O51: an input that changes is one that the step's access writes. -/
theorem onlyHostWritesChangeInputs : Obligations.OnlyHostWritesChangeInputs := by
  unfold Obligations.OnlyHostWritesChangeInputs
  intro s t stepped notReset
  obtain ⟨-, resets, data, tlen⟩ := step_inputs_cases stepped notReset
  refine ⟨fun i notWritten => (data i).resolve_right ?_, fun notWritten => tlen.resolve_right ?_, resets⟩
  · exact fun ⟨_, v, isWrite⟩ => notWritten v isWrite
  · exact fun ⟨_, v, isWrite⟩ => notWritten v isWrite

/-- An output that a step changes gets new free bits. -/
theorem step_clears_lt {s t : State} (stepped : step s = .next t) (changed : ¬ OutputsKept s t) :
    s.clears < t.clears := by
  obtain ⟨clears, -⟩ := (step_outputs_cases stepped).resolve_left changed
  omega

/-- `resets` counts the `Reset`s, and an input is lost by a `Reset` alone. -/
theorem step_resets {s t : State} (stepped : step s = .next t) :
    t.source = s.source ∧ t.resets = s.resets + (if s.pending.head? = some .reset then 1 else 0) ∧
      (∀ i : Fin 32, s.data[i] ≠ none → t.data[i] = none → s.resets < t.resets) ∧
      (s.tlen ≠ none → t.tlen = none → s.resets < t.resets) := by
  by_cases isReset : s.pending.head? = some .reset
  · obtain ⟨rest, next⟩ := List.head?_eq_some_iff.1 isReset
    obtain rfl := Host.Outcome.next.inj ((step_reset next).symm.trans stepped)
    rw [if_pos isReset]
    exact ⟨rfl, rfl, fun _ _ _ => Nat.lt_succ_self _, fun _ _ => Nat.lt_succ_self _⟩
  · obtain ⟨source, resets, data, tlen⟩ := step_inputs_cases stepped isReset
    rw [if_neg isReset]
    refine ⟨source, resets, fun i held lost => ?_, fun held lost => ?_⟩
    · rcases data i with kept | ⟨written, -⟩
      · exact absurd (kept.symm.trans lost) held
      · exact absurd lost written
    · rcases tlen with kept | ⟨written, -⟩
      · exact absurd (kept.symm.trans lost) held
      · exact absurd lost written

theorem step_clears_le {s t : State} (stepped : step s = .next t) : s.clears ≤ t.clears := by
  rcases step_outputs_cases stepped with kept | ⟨clears, -⟩
  · exact Nat.le_of_eq kept.clears.symm
  · omega

/-- Settles O55: an input is lost by a `Reset` alone, an output where a step does not keep the outputs. -/
theorem newFreeBitsWheneverAValueIsLost : Obligations.NewFreeBitsWheneverAValueIsLost := by
  unfold Obligations.NewFreeBitsWheneverAValueIsLost
  intro s t stepped
  obtain ⟨source, resets, data, tlen⟩ := step_resets stepped
  have lostOutput := step_clears_lt stepped
  exact ⟨source, resets, step_clears_le stepped, data, tlen,
    fun held lost => lostOutput fun kept => held (kept.result ▸ lost),
    fun k held lost => lostOutput fun kept => held (kept.lane ▸ lost),
    fun i held lost => lostOutput fun kept => held (kept.packet ▸ lost)⟩

/-- Settles O48: in the fault state `CMD` is not written, and the other accesses do not ask for it. -/
theorem faultStateIgnoresCommands : Obligations.FaultStateIgnoresCommands := by
  unfold Obligations.FaultStateIgnoresCommands
  intro s rest faulted
  refine ⟨fun w next => ?command, fun i b next => ?data, fun T next => ?tlen, fun _ _ _ => step_read_of_holdsValue,
    fun a t next notReset stepped => ?stays, fun next => ⟨_, step_reset next, by rw [resetRegisters_status]; decide⟩⟩
  case command => exact (step_nextIsCommand next).trans (issueCommand_of_fault (s := { s with pending := rest }) faulted w)
  case data =>
    rw [step_write_of_fits next (regOf_ofNat_data i) b.isLt, writeReg, BitVec.ofNat_toNat, BitVec.setWidth_eq]
  case tlen =>
    obtain ⟨-, writesTlen, -⟩ := inputWritesChangeOneRegister
    exact writesTlen s T rest next
  case stays =>
    have kept := step_of_fault faulted (by rw [next]; exact fun same => notReset (Option.some.inj same)) stepped
    rw [kept.status, faulted]

end Sys2Proof.Proofs
end

section
/-! PROOF. The mark (log entry 12): a step sets it by a use of a register that holds `⊥`, and nothing clears it; the step
of the spec's own model is the step that leaves no mark. -/

namespace Sys2Proof.Proofs
open Sys2Proof Sys2Proof.Machine Sys2Proof.Spec

/-- A `CMD` write marks the state by the inputs its command uses, and in no other way. -/
theorem issueCommand_marked_cases {w : Word32} {s t : State} (issued : issueCommand w s = .next t) :
    t.marked = s.marked ∨
      ∃ i, statusFault s.status = 0 ∧ decode w = .ok i ∧ (t.marked = true ↔ s.marked = true ∨ UsesUnwritten i s) := by
  rcases issueCommand_next_cases issued with ⟨-, rfl⟩ | ⟨running, ⟨e, -, rfl⟩ | ⟨i, decoded, ran⟩⟩
  · exact .inl rfl
  · exact .inl rfl
  · exact .inr ⟨i, running, decoded, exec_marked_iff (s := acceptWord w s) ran⟩

/-- Settles O53: only a read notes a use of its own, and only a command the uses of its inputs. -/
theorem onlyUsesOfNoValueMark : Obligations.OnlyUsesOfNoValueMark := by
  unfold Obligations.OnlyUsesOfNoValueMark
  intro s t stepped
  have unchanged (same : t.marked = s.marked) {P : Prop} :
      (s.marked = true → t.marked = true) ∧ (t.marked = true → s.marked = true ∨ P) := by
    rw [same]
    exact ⟨id, .inl⟩
  cases stepTaken stepped with
  | idle _ same => exact unchanged (by rw [same])
  | read sel r rest next mapped left =>
    have marked : t.marked = (s.marked || !holdsValue r s) := by rw [left]; rfl
    cases held : holdsValue r s with
    | true => exact unchanged (by simp [marked, held])
    | false => exact ⟨fun _ => by simp [marked, held], fun _ => .inr (.inl ⟨sel, r, congrArg List.head? next, mapped, held⟩)⟩
  | writeData _ _ _ _ left => exact unchanged (by rw [left])
  | writeTlen _ _ _ left => exact unchanged (by rw [left])
  | command w rest next issued =>
    rcases issueCommand_marked_cases issued with same | ⟨i, running, decoded, marked⟩
    · exact unchanged same
    · rw [marked]
      exact ⟨.inl, Or.imp_right fun uses => .inr ⟨w, i, congrArg List.head? next, running, decoded, uses⟩⟩
  | reset _ _ left => exact unchanged (by rw [left]; rfl)

theorem refusingStep_eq_none_of_marked {s : State} (marks : ∀ t, step s = .next t → t.marked = true) :
    refusingStep s = none := by
  rw [Option.eq_none_iff_forall_ne_some]
  intro t refusing
  obtain ⟨stepped, unmarked⟩ := refusingStep_eq_some.1 refusing
  exact absurd ((marks t stepped).symm.trans unmarked) (by decide)

/-- Settles O54: each use of `⊥` marks, a mark stays, and without either the step leaves the state unmarked. -/
theorem refusingStepRefusesUsesOfNoValue : Obligations.RefusingStepRefusesUsesOfNoValue := by
  refine ⟨fun s w rest i next running decoded uses => ?command, fun s sel r rest next mapped unheld => ?read,
    fun s marked => ?marked, fun s t => refusingStep_eq_some.1, fun s t stepped unmarked noRead noUse => ?taken⟩
  case command =>
    refine refusingStep_eq_none_of_marked fun t stepped => ?_
    rw [step_nextIsCommand next, issueCommand_of_decode_ok (s := { s with pending := rest }) running decoded] at stepped
    exact (exec_marked_iff stepped).2 (.inr uses)
  case read =>
    refine refusingStep_eq_none_of_marked fun t stepped => ?_
    obtain rfl := Host.Outcome.next.inj ((step_read_of_not_holdsValue next mapped unheld rfl).symm.trans stepped)
    rfl
  case marked =>
    refine refusingStep_eq_none_of_marked fun t stepped => ?_
    obtain ⟨stays, -⟩ := onlyUsesOfNoValueMark s t stepped
    exact stays marked
  case taken =>
    refine refusingStep_eq_some.2 ⟨stepped, Bool.eq_false_iff.2 fun marked => ?_⟩
    obtain ⟨-, set⟩ := onlyUsesOfNoValueMark s t stepped
    rcases set marked with before | ⟨sel, r, isRead, mapped, unheld⟩ | ⟨w, i, isCommand, running, decoded, uses⟩
    · exact absurd (before.symm.trans unmarked) (by decide)
    · exact absurd ((noRead sel r isRead mapped).symm.trans unheld) (by decide)
    · exact noUse w i isCommand running decoded uses

end Sys2Proof.Proofs
end

section
/-! PROOF. The accesses that have no step, by name (44_host_interface.md R103; log entry 5). -/

namespace Sys2Proof.Proofs
open Sys2Proof Sys2Proof.Machine Sys2Proof.Spec

/-- The `SEL` values of the registers that the host only reads. -/
def ReadOnlySelect (sel : Select) : Prop :=
  (0x22 ≤ sel.toNat ∧ sel.toNat < 0x28) ∨ (0x40 ≤ sel.toNat ∧ sel.toNat < 0x60)

theorem readOnlySelect_lane (k : Fin 4) : ReadOnlySelect (BitVec.ofNat 7 (0x24 + k)) := by
  unfold ReadOnlySelect
  revert k
  decide

theorem readOnlySelect_packet (i : Fin 32) : ReadOnlySelect (BitVec.ofNat 7 (0x40 + i)) := by
  unfold ReadOnlySelect
  revert i
  decide

theorem data_select_lt (i : Fin 32) : (BitVec.ofNat 7 i).toNat < 0x20 := by
  revert i
  decide

/-- A register takes every value of its width, or the host only reads it. -/
theorem writeReg_next_or_readOnly (r : Reg) (v : Nat) (s : State) :
    (∃ t, writeReg r v s = .next t) ∨ ReadOnlySelect (selOf r) := by
  cases r with
  | data i => exact .inl ⟨_, rfl⟩
  | tlen => exact .inl ⟨_, rfl⟩
  | cmd => exact .inl (issueCommand_next _ s)
  | status => exact .inr (.inl (by decide))
  | result => exact .inr (.inl (by decide))
  | lane k => exact .inr (readOnlySelect_lane k)
  | packet i => exact .inr (readOnlySelect_packet i)

/-- A value too wide is too wide for one of the three widths of the registers the host may write, or the host only reads
the register. -/
theorem tooWide_cases {r : Reg} {v : Nat} (tooWide : 2 ^ widthOf r ≤ v) :
    ReadOnlySelect (selOf r) ∨ ((selOf r).toNat < 0x20 ∧ 2 ^ 8 ≤ v) ∨ (selOf r = 0x20 ∧ 2 ^ 64 ≤ v) ∨
      (selOf r = 0x21 ∧ 2 ^ 32 ≤ v) := by
  cases r with
  | data i => exact .inr (.inl ⟨data_select_lt i, tooWide⟩)
  | tlen => exact .inr (.inr (.inl ⟨rfl, tooWide⟩))
  | cmd => exact .inr (.inr (.inr ⟨rfl, tooWide⟩))
  | status => exact .inl (.inl (by decide))
  | result => exact .inl (.inl (by decide))
  | lane k => exact .inl (readOnlySelect_lane k)
  | packet i => exact .inl (readOnlySelect_packet i)

/-- A refused write to a register is to one the host only reads, or of a value too wide. -/
theorem step_write_refused_cases {s : State} {r : Reg} {v : Nat} {rest : List HostAccess} {why : Refusal}
    (next : NextAccessIs s (.write (selOf r) v) rest) (refused : step s = .refused why) :
    ReadOnlySelect (selOf r) ∨ ((selOf r).toNat < 0x20 ∧ 2 ^ 8 ≤ v) ∨ (selOf r = 0x20 ∧ 2 ^ 64 ≤ v) ∨
      (selOf r = 0x21 ∧ 2 ^ 32 ≤ v) := by
  have mapped : regOf (selOf r) = some r := (regOf_eq_some_iff _ r).2 rfl
  rcases Nat.lt_or_ge v (2 ^ widthOf r) with fits | tooWide
  · rw [step_write_of_fits next mapped fits] at refused
    rcases writeReg_next_or_readOnly r v { s with pending := rest } with ⟨t, taken⟩ | readOnly
    · exact absurd (taken.symm.trans refused) nofun
    · exact .inl readOnly
  · exact tooWide_cases tooWide

/-- An access without a step is of a reserved `SEL`, or a write that its register refuses. -/
theorem step_refused_cases {s : State} {why : Refusal} (refused : step s = .refused why) :
    ∃ (sel : Select) (v : Nat),
      ((s.pending.head? = some (.read sel) ∨ s.pending.head? = some (.write sel v)) ∧ regOf sel = none) ∨
      (s.pending.head? = some (.write sel v) ∧ (ReadOnlySelect sel ∨ (sel.toNat < 0x20 ∧ 2 ^ 8 ≤ v) ∨
        (sel = 0x20 ∧ 2 ^ 64 ≤ v) ∨ (sel = 0x21 ∧ 2 ^ 32 ≤ v))) := by
  rcases issued : s.pending with _ | ⟨a, rest⟩
  · exact absurd ((step_nil issued).symm.trans refused) nofun
  cases a with
  | read sel =>
    refine ⟨sel, 0, .inl ⟨.inl rfl, ?_⟩⟩
    rw [Option.eq_none_iff_forall_ne_some]
    exact fun r mapped => absurd ((step_read issued mapped).symm.trans refused) nofun
  | write sel v =>
    refine ⟨sel, v, ?_⟩
    cases mapped : regOf sel with
    | none => exact .inl ⟨.inr rfl, rfl⟩
    | some r =>
      obtain rfl := (regOf_eq_some_iff sel r).1 mapped
      exact .inr ⟨rfl, step_write_refused_cases issued refused⟩
  | reset => exact absurd ((step_reset issued).symm.trans refused) nofun

/-- Settles O28: the checks of a write are made in the order of the names, and `step_refused_cases` has no other case. -/
theorem onlyUnmappedAccessesAreRefusedByName : Obligations.OnlyUnmappedAccessesAreRefusedByName := by
  refine ⟨fun s sel v rest unmapped => ?unmapped, fun s sel r v rest next mapped => ?write, fun s why refused => ?only⟩
  case unmapped =>
    exact ⟨fun next => step_read_of_unmapped next unmapped, fun next => step_write_of_unmapped next unmapped⟩
  case write =>
    refine ⟨step_write_of_tooWide next mapped, fun fits readOnly => ?_⟩
    obtain ⟨r', mapped', refuses⟩ := regOf_readOnly readOnly
    obtain rfl := Option.some.inj (mapped'.symm.trans mapped)
    exact (step_write_of_fits next mapped fits).trans (refuses _ _)
  case only =>
    obtain ⟨sel, v, ⟨isAccess, unmapped⟩ | ⟨isWrite, readOnly | width⟩⟩ := step_refused_cases refused
    · exact ⟨sel, v, .inl ⟨isAccess, (regOf_eq_none_iff sel).1 unmapped⟩⟩
    · exact ⟨sel, v, .inr ⟨isWrite, readOnly.imp_right .inl⟩⟩
    · exact ⟨sel, v, .inr ⟨isWrite, .inr (.inr width)⟩⟩

end Sys2Proof.Proofs
end

section
/-! PROOF. Runs of steps (20_memory.md R46, 60_exceptions.md R114, R119): each step takes one access off the list, and what
comes after it does not change what it does. -/

namespace Sys2Proof.Proofs
open Sys2Proof Sys2Proof.Machine Sys2Proof.Spec

/-- Settles O44: there is no access to take. -/
theorem idleKeepsEverything : Obligations.IdleKeepsEverything :=
  fun _ => step_nil

/-- Settles O7: the placed access is the `CMD` write of the command's word, which decodes to the command. -/
theorem fetchedWordRunsNext : Obligations.FetchedWordRunsNext := by
  unfold Obligations.FetchedWordRunsNext
  intro s i fits running
  have next : NextIsCommand (s.withFetchWord 32 (encode i).toNat) (encode i) s.pending := by
    rw [NextIsCommand, State.withFetchWord, Nat.mod_eq_of_lt (encode i).isLt, NextAccessIs, issueFirst_pending]
    rfl
  refine ⟨_, acceptWord_wordAccepted (encode i) s.pending s, ?_⟩
  rw [step_nextIsCommand next]
  exact issueCommand_of_decode_ok running (decode_encode fits)

/-- `o`, and then `f` from its next state. -/
def thenRun (o : Host.Outcome State Fault Refusal) (f : State → Host.Outcome State Fault Refusal) :
    Host.Outcome State Fault Refusal :=
  match o with
  | .next t => f t
  | .fault r => .fault r
  | .refused r => .refused r

theorem thenRun_eq_next_iff {o : Host.Outcome State Fault Refusal} {f : State → Host.Outcome State Fault Refusal}
    {t : State} : thenRun o f = .next t ↔ ∃ s, o = .next s ∧ f s = .next t := by
  cases o <;> simp [thenRun]

/-- `core`'s run, at the model's own types. -/
def runSteps (k : Nat) (s : State) : Host.Outcome State Fault Refusal := Host.Core.run Sys2Proof.core k s

theorem runSteps_succ (k : Nat) (s : State) : runSteps (k + 1) s = thenRun (step s) (runSteps k) := by
  have coreStep : Sys2Proof.core.step s = step s := rfl
  refine (Host.Core.run.eq_2 Sys2Proof.core s k).trans ?_
  rw [coreStep]
  cases step s <;> rfl

theorem runSteps_succ_eq_next_iff {k : Nat} {s t : State} :
    runSteps (k + 1) s = .next t ↔ ∃ s', step s = .next s' ∧ runSteps k s' = .next t := by
  rw [runSteps_succ, thenRun_eq_next_iff]

theorem performInOrder_cons (a : HostAccess) (later : List HostAccess) (s : State) :
    performInOrder (a :: later) s = thenRun (performAccess a s) (performInOrder later) := rfl

theorem runSteps_pending {k : Nat} {s t : State} (ran : runSteps k s = .next t) :
    t.pending = s.pending.drop k := by
  induction k generalizing s with
  | zero =>
    obtain rfl := Host.Outcome.next.inj ran
    rfl
  | succ k ih =>
    obtain ⟨s', stepped, ran⟩ := runSteps_succ_eq_next_iff.1 ran
    rw [ih ran, step_pending stepped, List.drop_tail]

theorem performAccess_keeps_pending {a : HostAccess} {s t : State} (performed : performAccess a s = .next t) :
    t.pending = s.pending := by
  have same := performAccess_pending a s s.pending
  rw [performed, onNext] at same
  exact (congrArg State.pending (Host.Outcome.next.inj same) :)

/-- A run of as many steps as `first` has accesses performs those, whatever comes after them. -/
theorem runSteps_eq_performInOrder {s : State} {first rest : List HostAccess} (issued : s.pending = first ++ rest) :
    runSteps first.length s = performInOrder first { s with pending := rest } := by
  induction first generalizing s with
  | nil =>
    obtain rfl : s.pending = rest := issued
    rfl
  | cons a later ih =>
    have stepped : step s =
        onNext (fun t => { t with pending := later ++ rest }) (performAccess a { s with pending := rest }) :=
      (step_cons issued).trans (performAccess_pending a { s with pending := rest } (later ++ rest))
    rw [List.length_cons, runSteps_succ, stepped, performInOrder_cons]
    cases performed : performAccess a { s with pending := rest } with
    | next t =>
      obtain rfl : t.pending = rest := performAccess_keeps_pending performed
      exact ih (s := { t with pending := later ++ t.pending }) rfl
    | fault f => rfl
    | refused r => rfl

/-- Settles O45: one step takes one access; the run and what it leaves follow by induction on the accesses performed. -/
theorem accessesTakeEffectInIssueOrder : Obligations.AccessesTakeEffectInIssueOrder :=
  ⟨fun _ _ _ => step_cons, fun _ _ _ => runSteps_eq_performInOrder, fun _ _ _ => runSteps_pending⟩

theorem head_ne_and_notMem_tail_of_notMem_take {p : List HostAccess} {a : HostAccess} {k : Nat}
    (absent : a ∉ p.take (k + 1)) : p.head? ≠ some a ∧ a ∉ p.tail.take k := by
  cases p with
  | nil => simp
  | cons b p =>
    simp only [List.take_succ_cons, List.mem_cons, not_or] at absent
    exact ⟨by simpa using Ne.symm absent.left, absent.right⟩

/-- Settles O49: every step without a `Reset` keeps the faulted unit as it is, so every run of them does. -/
theorem onlyResetLeavesTheFaultState : Obligations.OnlyResetLeavesTheFaultState := by
  unfold Obligations.OnlyResetLeavesTheFaultState
  intro k
  induction k with
  | zero =>
    intro s t faulted _ ran
    obtain rfl := Host.Outcome.next.inj ran
    exact ⟨faulted, rfl, rfl, rfl, rfl, rfl⟩
  | succ k ih =>
    intro s t faulted noReset ran
    obtain ⟨s', stepped, ran⟩ := runSteps_succ_eq_next_iff.1 ran
    obtain ⟨notReset, noResetLater⟩ := head_ne_and_notMem_tail_of_notMem_take noReset
    have kept := step_of_fault faulted notReset stepped
    obtain ⟨stays, cmd, status, result, lane, packet⟩ :=
      ih s' t (by rw [kept.status, faulted]) (by rwa [step_pending stepped]) ran
    exact ⟨stays, cmd.trans kept.cmd, status.trans kept.status, result.trans kept.result, lane.trans kept.lane,
      packet.trans kept.packet⟩

end Sys2Proof.Proofs
end

section
/-! PROOF. What a `CMD` write leaves, with the word it is explained by (44_host_interface.md R98, R99, 60_exceptions.md R108,
R110): a fault that the word raises, or the output of its command with the zero bits of its word. -/

namespace Sys2Proof.Proofs
open Sys2Proof Sys2Proof.Machine Sys2Proof.Spec

/-- The words that raise a cause. -/
def RaisedBy (w : Word32) : FaultCause → Prop
  | .illegalOp => 4 ≤ opField w
  | .reservedBits => opField w < 4 ∧ rsvField w ≠ 0
  | .lengthBound => opField w < 4 ∧ opField w ≠ 1 ∧ rsvField w = 0 ∧ 8 ≤ lenField w
  | .lengthMismatch => opField w = 1 ∧ rsvField w = 0
  | .lengthUnsupported => opField w = 3 ∧ rsvField w = 0 ∧ lenField w ≤ 6

theorem raisedBy_decodeCause {w : Word32} {e : DecodeError} (undecoded : decode w = .error e) :
    RaisedBy w (decodeCause e) := by
  cases e with
  | illegalOp => exact (decode_eq_illegalOp_iff w).1 undecoded
  | reservedBits => exact (decode_eq_reservedBits_iff w).1 undecoded

theorem opField_lt_of_decode {w : Word32} {i : Instr} (decoded : decode w = .ok i) : opField w < 4 := by
  obtain ⟨legal, -⟩ := (exists_decode_eq_ok_iff w).1 ⟨i, decoded⟩
  exact BitVec.lt_def.2 legal

theorem raisedBy_lengthBound {w : Word32} {i : Instr} (decoded : decode w = .ok i) (notPacket : opcodeOf i ≠ 1)
    (long : 7 < i.len) : RaisedBy w .lengthBound := by
  obtain ⟨op, rsv, len⟩ := decode_eq_ok_iff.1 decoded
  exact ⟨opField_lt_of_decode decoded, op ▸ notPacket, rsv, BitVec.le_def.2 (len ▸ long)⟩

/-- The word of a command whose length contract is broken raises the fault of that contract. -/
theorem raisedBy_lengthFault {w : Word32} {i : Instr} {remainder : Nat} (decoded : decode w = .ok i)
    (fails : lengthPasses remainder i = false) : RaisedBy w (lengthFault i) := by
  obtain ⟨op, rsv, len⟩ := decode_eq_ok_iff.1 decoded
  cases i with
  | fhTail n => exact raisedBy_lengthBound decoded (by simp [opcodeOf]) (Nat.not_le.1 (of_decide_eq_false fails))
  | hhPacket n => exact ⟨op, rsv⟩
  | mirTail n => exact raisedBy_lengthBound decoded (by simp [opcodeOf]) (Nat.not_le.1 (of_decide_eq_false fails))
  | mumTail n =>
    have notSeven : n ≠ 7 := of_decide_eq_false fails
    rcases Nat.lt_or_gt_of_ne notSeven with short | long
    · rw [lengthFault, if_neg (by omega)]
      exact ⟨op, rsv, BitVec.le_def.2 (len ▸ Nat.le_of_lt_succ short)⟩
    · rw [lengthFault, if_pos long]
      exact raisedBy_lengthBound decoded (by simp [opcodeOf]) long

/-- `w` is the word of a word command with a legal length, and `v` has the zero bits of its output. -/
structure WordOutput (w : Word32) (v : Word64) : Prop where
  rsv : rsvField w = 0
  legal : opField w < 4
  notPacket : opField w ≠ 1
  short : lenField w ≤ 7
  seven : opField w = 3 → lenField w = 7
  top : opField w = 0 ∨ opField w = 3 → v.extractLsb' 56 8 = 0
  bottom : opField w = 2 → v.extractLsb' 0 8 = 0

theorem fastHashWord_top {bytes : List Byte} (short : bytes.length ≤ 7) : (fastHashWord bytes).extractLsb' 56 8 = 0 := by
  have lane := fastHashWord_lane (Nat.le_succ_of_le short) 7
  rwa [byteAt, List.getD_eq_default _ _ short] at lane

theorem mirHashWord_bottom {bytes : List Byte} (short : bytes.length ≤ 7) : (mirHashWord bytes).extractLsb' 0 8 = 0 := by
  have lane := mirHashWord_lane (Nat.le_succ_of_le short) (j := 0) (by decide)
  rwa [raised, if_neg (by omega)] at lane

theorem wordOutput_fhTail {w : Word32} {n : Nat} (decoded : decode w = .ok (.fhTail n)) (short : n ≤ 7) (s : State) :
    WordOutput w (fastHashWord (readInput n s)) := by
  obtain ⟨op, rsv, len⟩ := decode_eq_ok_iff.1 decoded
  exact {
    rsv
    legal := opField_lt_of_decode decoded
    notPacket := by simp [op, opcodeOf]
    short := BitVec.le_def.2 (len ▸ short)
    seven := by simp [op, opcodeOf]
    top := fun _ => fastHashWord_top (by simpa using short)
    bottom := by simp [op, opcodeOf] }

theorem wordOutput_mirTail {w : Word32} {n : Nat} (decoded : decode w = .ok (.mirTail n)) (short : n ≤ 7) (s : State) :
    WordOutput w (mirHashWord (readInput n s)) := by
  obtain ⟨op, rsv, len⟩ := decode_eq_ok_iff.1 decoded
  exact {
    rsv
    legal := opField_lt_of_decode decoded
    notPacket := by simp [op, opcodeOf]
    short := BitVec.le_def.2 (len ▸ short)
    seven := by simp [op, opcodeOf]
    top := by simp [op, opcodeOf]
    bottom := fun _ => mirHashWord_bottom (by simpa using short) }

theorem wordOutput_mumTail {w : Word32} (decoded : decode w = .ok (.mumTail 7)) (s : State) :
    WordOutput w (mumHashWord (readInput 7 s)) := by
  obtain ⟨op, rsv, len⟩ := decode_eq_ok_iff.1 decoded
  have seven : lenField w = 7 := BitVec.eq_of_toNat_eq len.symm
  exact {
    rsv
    legal := opField_lt_of_decode decoded
    notPacket := by simp [op, opcodeOf]
    short := BitVec.le_def.2 (len ▸ Nat.le_refl 7)
    seven := fun _ => seven
    top := fun _ => by
      rw [mumHashWord_eq_fastHashWord (readInput_length 7 s)]
      exact fastHashWord_top (by simp)
    bottom := by simp [op, opcodeOf] }

/-- A command of a decoded word takes a fault that the word raises, or commits an output of the word's kind. -/
theorem exec_outcome_of_decode {w : Word32} {i : Instr} {s t : State} (decoded : decode w = .ok i)
    (ran : exec i s = .next t) :
    (∃ c, RaisedBy w c ∧ FaultTaken (causeCode c) s t) ∨ (∃ v, WordOutput w v ∧ WordCommitted v s t) ∨
      ((rsvField w = 0 ∧ opField w = 1) ∧ ∃ P, PacketCommitted P s t) := by
  cases passes : lengthPasses (remainderOf (tlenBits s)) i with
  | false =>
    obtain rfl := Host.Outcome.next.inj ((exec_of_fails passes).symm.trans ran)
    exact .inl ⟨_, raisedBy_lengthFault decoded passes, takeFault_noteUse_faultTaken _ _ s⟩
  | true =>
    obtain rfl := Host.Outcome.next.inj ((exec_of_passes passes).symm.trans ran)
    cases i with
    | fhTail n =>
      have short : n ≤ 7 := of_decide_eq_true passes
      exact .inr (.inl ⟨_, wordOutput_fhTail decoded short s, commitWord_noteUse_wordCommitted _ _ s⟩)
    | hhPacket n =>
      obtain ⟨op, rsv, -⟩ := decode_eq_ok_iff.1 decoded
      have bound : n < 32 := (of_decide_eq_true passes : n = _) ▸ remainderOf_lt _
      exact .inr (.inr ⟨⟨rsv, op⟩, _,
        commitPacket_noteUse_packetCommitted (fun _ => buildPacket_getElem bound (readInput n s)) _ s⟩)
    | mirTail n =>
      have short : n ≤ 7 := of_decide_eq_true passes
      exact .inr (.inl ⟨_, wordOutput_mirTail decoded short s, commitWord_noteUse_wordCommitted _ _ s⟩)
    | mumTail n =>
      obtain rfl : n = 7 := of_decide_eq_true passes
      exact .inr (.inl ⟨_, wordOutput_mumTail decoded s, commitWord_noteUse_wordCommitted _ _ s⟩)

/-- Outside the fault state a `CMD` write accepts its word, and then ends in one of those three ways. -/
theorem issueCommand_outcome {w : Word32} {s t : State} (running : statusFault s.status = 0)
    (issued : issueCommand w s = .next t) :
    (∃ c, RaisedBy w c ∧ FaultTaken (causeCode c) (acceptWord w s) t) ∨
      (∃ v, WordOutput w v ∧ WordCommitted v (acceptWord w s) t) ∨
      ((rsvField w = 0 ∧ opField w = 1) ∧ ∃ P, PacketCommitted P (acceptWord w s) t) := by
  rcases issueCommand_next_cases issued with ⟨faulted, -⟩ | ⟨-, ⟨e, undecoded, rfl⟩ | ⟨i, decoded, ran⟩⟩
  · exact absurd (running.symm.trans faulted) (by decide)
  · exact .inl ⟨_, raisedBy_decodeCause undecoded, takeFault_faultTaken _ _⟩
  · exact exec_outcome_of_decode decoded ran

end Sys2Proof.Proofs
end

section
/-! PROOF. Coherence (10_state.md R25–R29, 20_memory.md R48, 60_exceptions.md R108–R111): it holds at reset, speaks of no
register but `CMD`, `STATUS` and the outputs, and each of the three ways a command can end restores all of it. -/

namespace Sys2Proof.Proofs
open Sys2Proof Sys2Proof.Machine Sys2Proof.Spec

/-- Settles O46: each part is a closed statement about the reset values. -/
theorem resetIsCoherent : Obligations.ResetIsCoherent where
  reserved := by decide
  faultFields := by decide
  outputs := by decide
  lanes := by decide
  named := by decide
  cause := by decide
  kind := by decide
  shape := by decide

theorem coherent_of_same_registers {s t : State} (coherent : Coherent s) (cmd : t.cmd = s.cmd)
    (status : t.status = s.status) (result : t.result = s.result) (lane : t.lane = s.lane)
    (packet : t.packet = s.packet) : Coherent t := by
  cases s
  cases t
  subst cmd status result lane packet
  obtain ⟨reserved, faultFields, outputs, lanes, named, cause, kind, shape⟩ := coherent
  exact ⟨reserved, faultFields, outputs, lanes, named, cause, kind, shape⟩

/-- The cause taken is explained when the word in `CMD` raises it. -/
theorem causeExplained_of_raisedBy {t : State} {c : FaultCause} (cause : statusCause t.status = causeCode c)
    (raised : RaisedBy t.cmd c) : CauseExplained t := by
  rw [CauseExplained, cause]
  cases c <;> simpa [causeCode, RaisedBy] using raised

theorem causeCode_bounds (c : FaultCause) : 1 ≤ causeCode c ∧ causeCode c ≤ 5 := by
  cases c <;> decide

section
variable {a t : State} {w : Word32}

/-- The parts of coherence that hold as soon as a word is accepted, and that no ending of the command touches. -/
structure Accepted (w : Word32) (a : State) : Prop where
  cmd : a.cmd = w
  reserved : ReservedStatusZero a
  named : StatusNamesCommand a

theorem acceptWord_accepted {s : State} (coherent : Coherent s) (w : Word32) (rest : List HostAccess) :
    Accepted w (acceptWord w { s with pending := rest }) := by
  have accepted := acceptWord_wordAccepted w rest s
  obtain ⟨bit3, high⟩ := coherent.reserved
  exact ⟨rfl, ⟨accepted.bit3.trans bit3, accepted.high.trans high⟩, accepted.lastOp, accepted.lastLen⟩

theorem reservedStatusZero_of_last (accepted : Accepted w a) (last : LastFieldsKept a t) : ReservedStatusZero t :=
  ⟨last.bit3.trans accepted.reserved.left, last.high.trans accepted.reserved.right⟩

theorem statusNamesCommand_of_last (accepted : Accepted w a) (last : LastFieldsKept a t) (inputs : InputsKept a t) :
    StatusNamesCommand t := by
  rw [StatusNamesCommand, inputs.cmd, last.lastOp, last.lastLen]
  exact accepted.named

theorem lanesViewPacket_of_none (lane : ∀ k : Fin 4, t.lane[k] = none) (packet : ∀ i : Fin 32, t.packet[i] = none) :
    LanesViewPacket t := fun k m => by
  have inPacket : 8 * k.val + m.val < 32 := by omega
  rw [lane k, Option.map_none]
  exact (packet ⟨_, inPacket⟩).symm

theorem coherent_of_faultTaken {c : FaultCause} (accepted : Accepted w a) (raised : RaisedBy w c)
    (taken : FaultTaken (causeCode c) a t) : Coherent t := by
  have cmd : t.cmd = w := taken.inputs.cmd.trans accepted.cmd
  obtain ⟨fault, cause, kind, outputs, last, inputs⟩ := taken
  exact {
    reserved := reservedStatusZero_of_last accepted last
    faultFields := by
      rw [FaultFieldsAgree, if_pos fault, cause]
      exact ⟨(causeCode_bounds c).left, (causeCode_bounds c).right, kind⟩
    outputs := by simp [OutputsMatchKind, kind, outputs.result, outputs.lane, outputs.packet, kindWord, kindPacket]
    lanes := lanesViewPacket_of_none outputs.lane outputs.packet
    named := statusNamesCommand_of_last accepted last inputs
    cause := causeExplained_of_raisedBy cause (cmd ▸ raised)
    kind := by simp [KindExplained, kind, fault, kindWord, kindPacket, kindNone]
    shape := by simp [ResultShape, outputs.result] }

theorem coherent_of_wordCommitted {v : Word64} (accepted : Accepted w a) (running : statusFault a.status = 0)
    (noCause : statusCause a.status = 0) (output : WordOutput w v) (committed : WordCommitted v a t) : Coherent t := by
  have cmd : t.cmd = w := committed.inputs.cmd.trans accepted.cmd
  obtain ⟨result, lane, packet, kind, fault, cause, last, inputs⟩ := committed
  exact {
    reserved := reservedStatusZero_of_last accepted last
    faultFields := by simp [FaultFieldsAgree, fault, running, cause, noCause]
    outputs := by simp [OutputsMatchKind, kind, result, lane, packet, kindWord, kindPacket]
    lanes := lanesViewPacket_of_none lane packet
    named := statusNamesCommand_of_last accepted last inputs
    cause := by simp [CauseExplained, cause, noCause]
    kind := by
      have explained : rsvField w = 0 ∧ opField w < 4 ∧ opField w ≠ 1 ∧ lenField w ≤ 7 ∧
          (opField w = 3 → lenField w = 7) :=
        ⟨output.rsv, output.legal, output.notPacket, output.short, output.seven⟩
      simpa [KindExplained, kind, kindWord, kindPacket, kindNone, cmd] using explained
    shape := by
      have zeroBits := And.intro output.top output.bottom
      simpa [ResultShape, result, cmd] using zeroBits }

theorem coherent_of_packetCommitted {P : Nat → Byte} (accepted : Accepted w a) (running : statusFault a.status = 0)
    (noCause : statusCause a.status = 0) (rsv : rsvField w = 0) (op : opField w = 1) (committed : PacketCommitted P a t) :
    Coherent t := by
  have cmd : t.cmd = w := committed.inputs.cmd.trans accepted.cmd
  obtain ⟨result, lane, packet, kind, fault, cause, last, inputs⟩ := committed
  exact {
    reserved := reservedStatusZero_of_last accepted last
    faultFields := by simp [FaultFieldsAgree, fault, running, cause, noCause]
    outputs := by
      have lanesHeld (k : Fin 4) : t.lane[k].isSome = true := by
        obtain ⟨v, held, -⟩ := lane k
        rw [held, Option.isSome_some]
      have packetHeld (i : Fin 32) : t.packet[i].isSome = true := by rw [packet i, Option.isSome_some]
      exact ⟨by simp [kind], by simp [result, kind, kindWord], fun k => iff_of_true (lanesHeld k) kind,
        fun i => iff_of_true (packetHeld i) kind⟩
    lanes := fun k m => by
      obtain ⟨v, held, bytes⟩ := lane k
      have inPacket : 8 * k.val + m.val < 32 := by omega
      rw [held, Option.map_some, bytes m]
      exact (packet ⟨_, inPacket⟩).symm
    named := statusNamesCommand_of_last accepted last inputs
    cause := by simp [CauseExplained, cause, noCause]
    kind := by simp [KindExplained, kind, kindWord, kindPacket, kindNone, cmd, rsv, op]
    shape := by simp [ResultShape, result] }

end

theorem coherent_of_issueCommand {w : Word32} {s t : State} {rest : List HostAccess} (coherent : Coherent s)
    (issued : issueCommand w { s with pending := rest } = .next t) : Coherent t := by
  rcases statusFault_cases s.status with running | faulted
  · have accepted := acceptWord_accepted coherent w rest
    have noCause : statusCause s.status = 0 := by simpa [FaultFieldsAgree, running] using coherent.faultFields
    have kept := acceptWord_wordAccepted w rest s
    rcases issueCommand_outcome (s := { s with pending := rest }) running issued with
      ⟨c, raised, taken⟩ | ⟨v, output, committed⟩ | ⟨⟨rsv, op⟩, P, committed⟩
    · exact coherent_of_faultTaken accepted raised taken
    · exact coherent_of_wordCommitted accepted (kept.fault.trans running) (kept.cause.trans noCause) output committed
    · exact coherent_of_packetCommitted accepted (kept.fault.trans running) (kept.cause.trans noCause) rsv op committed
  · obtain rfl := Host.Outcome.next.inj
      ((issueCommand_of_fault (s := { s with pending := rest }) faulted w).symm.trans issued)
    exact coherent_of_same_registers coherent rfl rfl rfl rfl rfl

/-- Settles O47: a step is a command, a `Reset`, or leaves alone every register that coherence speaks of. -/
theorem stepKeepsCoherent : Obligations.StepKeepsCoherent := by
  unfold Obligations.StepKeepsCoherent
  intro s t coherent stepped
  rcases step_outputs_cases stepped with kept | ⟨-, ⟨-, w, rest, next⟩ | isReset⟩
  · exact coherent_of_same_registers coherent kept.cmd kept.status kept.result kept.lane kept.packet
  · rw [step_nextIsCommand next] at stepped
    exact coherent_of_issueCommand coherent stepped
  · obtain ⟨rest, next⟩ := List.head?_eq_some_iff.1 isReset
    obtain rfl := Host.Outcome.next.inj ((step_reset next).symm.trans stepped)
    exact coherent_of_same_registers resetIsCoherent rfl rfl rfl rfl rfl

end Sys2Proof.Proofs
end

section
/-! PROOF. The whole `STATUS` word (95_test_vectors.md): a word is the OR of its fields at their places, and in a coherent
state the command and its outcome give all of them. -/

namespace Sys2Proof.Proofs
open Sys2Proof Sys2Proof.Machine Sys2Proof.Spec

/-- Writing a field that is zero is ORing it in. -/
theorem putField_of_clear {lo len : Nat} (v : BitVec len) {w : Word32} (clear : w.extractLsb' lo len = 0) :
    putField lo v w = (v.setWidth 32 <<< lo) ||| w := by
  have masked : w &&& ~~~((BitVec.allOnes len).setWidth 32 <<< lo) = w := by
    refine BitVec.eq_of_getLsbD_eq fun k inWord => ?_
    by_cases inField : lo ≤ k ∧ k - lo < len
    · obtain ⟨above, below⟩ := inField
      have bit := congrArg (·.getLsbD (k - lo)) clear
      simp only [BitVec.getLsbD_extractLsb', below, decide_true, Bool.true_and, Nat.add_sub_cancel' above] at bit
      simp [bit]
    · by_cases above : lo ≤ k
      · have pastField : ¬ k - lo < len := fun below => inField ⟨above, below⟩
        simp [inWord, pastField]
      · simp [inWord, Nat.not_le.1 above]
  rw [putField, masked, BitVec.or_comm]

/-- `STATUS` with its reserved bits zero is its five fields at their places. -/
theorem status_eq_or {st : Word32} (reserved : st.extractLsb' 3 1 = 0 ∧ st.extractLsb' 16 16 = 0) :
    st = ((statusLastLen st).setWidth 32 <<< 11) ||| ((statusLastOp st).setWidth 32 <<< 8) |||
      ((statusCause st).setWidth 32 <<< 4) ||| ((statusFault st).setWidth 32 <<< 2) ||| (statusKind st).setWidth 32 := by
  obtain ⟨bit3, high⟩ := reserved
  have written : st = putLastLen (statusLastLen st) (putLastOp (statusLastOp st) (putCause (statusCause st)
      (putFault (statusFault st) (putKind (statusKind st) 0)))) :=
    status_ext _ _ (by simp) (by simp) (by simp [bit3]) (by simp) (by simp) (by simp) (by simp [high])
  conv_lhs => rw [written]
  rw [putLastLen, putField_of_clear, putLastOp, putField_of_clear, putCause, putField_of_clear, putFault,
    putField_of_clear, putKind, putField_of_clear]
  · simp only [BitVec.ofNat_eq_ofNat, BitVec.or_zero, BitVec.shiftLeft_zero, BitVec.or_assoc]
  · decide
  · exact (statusFault_putKind _ _).trans (by decide)
  · exact (statusCause_putFault _ _).trans ((statusCause_putKind _ _).trans (by decide))
  · change statusLastOp (putCause _ (putFault _ (putKind _ 0))) = 0
    simp
    decide
  · change statusLastLen (putLastOp _ (putCause _ (putFault _ (putKind _ 0)))) = 0
    simp
    decide

theorem issueCommand_cmd {w : Word32} {s t : State} (running : statusFault s.status = 0)
    (issued : issueCommand w s = .next t) : t.cmd = w := by
  rcases issueCommand_outcome running issued with ⟨_, -, taken⟩ | ⟨_, -, committed⟩ | ⟨-, _, committed⟩
  · exact taken.inputs.cmd
  · exact committed.inputs.cmd
  · exact committed.inputs.cmd

/-- The output kind of a success is that of the word's `OP`. -/
theorem issueCommand_kind {w : Word32} {s t : State} (running : statusFault s.status = 0)
    (issued : issueCommand w s = .next t) (success : statusFault t.status = 0) :
    statusKind t.status = if opField w = 1 then 2 else 1 := by
  rcases issueCommand_outcome running issued with ⟨_, -, taken⟩ | ⟨_, output, committed⟩ | ⟨⟨-, op⟩, _, committed⟩
  · exact absurd (success.symm.trans taken.fault) (by decide)
  · rw [committed.kind, if_neg output.notPacket]
  · rw [committed.kind, if_pos op]

/-- Settles O12: the state left is coherent, so its `STATUS` has no other bits, names the word and has `CAUSE = 0` after a
success; `KIND` is that of the outcome. -/
theorem statusWordAfterCommand : Obligations.StatusWordAfterCommand := by
  unfold Obligations.StatusWordAfterCommand
  intro s t w rest coherent running next stepped
  obtain ⟨reserved, faultFields, -, -, ⟨lastOp, lastLen⟩, -, -, -⟩ := stepKeepsCoherent s t coherent stepped
  rw [step_nextIsCommand next] at stepped
  rw [issueCommand_cmd (s := { s with pending := rest }) running stepped] at lastOp lastLen
  refine ⟨fun success => (status_eq_or reserved).trans ?success, fun faulted => (status_eq_or reserved).trans ?fault⟩
  case success =>
    have noCause : statusCause t.status = 0 := by simpa [FaultFieldsAgree, success] using faultFields
    rw [lastLen, lastOp, noCause, success, issueCommand_kind (s := { s with pending := rest }) running stepped success]
    change _ = ((lenField w).setWidth 32 <<< 11) ||| ((opField w).setWidth 32 <<< 8) |||
      (if opField w = 1 then 2 else 1)
    split <;> simp
  case fault =>
    obtain ⟨-, -, noKind⟩ : 1 ≤ statusCause t.status ∧ statusCause t.status ≤ 5 ∧ statusKind t.status = kindNone := by
      simpa [FaultFieldsAgree, faulted] using faultFields
    rw [lastLen, lastOp, faulted, noKind]
    exact BitVec.or_zero

end Sys2Proof.Proofs
end
